-- ==== Sys2Proof/Word.lean ====
section
/-! DEFINITION. The plain data types of the Toypad frame codec: bytes, words, 32-byte spaces, wire frames
(spec/00_scope.md R5, R12, R13). -/

namespace Sys2Proof

/-- A byte: unsigned, 8 bits, bit 0 least significant (R12). -/
abbrev Byte := BitVec 8

/-- A word: unsigned, 32 bits (R12). -/
abbrev Word := BitVec 32

/-- A byte-indexed space (`IN`, `OUT`, `TMPL` and `KDF`'s working copy; R13, R40), as a list of
(index, byte) pairs in the one canonical form that `Memory.wf` states. -/
abbrev Memory := List Host.Cell

/-- A frame as it crosses the wire: 32 bytes moved as one unit, element `i` being offset `i` (R5, R41, R47). -/
abbrev WireFrame := Vector Byte 32

end Sys2Proof
end

