-- ==== Sys2Proof/Machine/Params.lean ====
section
/-! DEFINITION. The fixed constants of spec/00_scope.md section 3 (R5, R7 to R10), each named once
(spec/91_not_in_source.md N8). -/

namespace Sys2Proof.Machine

/-- `FRAME_SIZE` (R5): bytes in every frame and every buffer. -/
def frameSize : Nat := 32

/-- `UID_LEN_DEVICE` (R7): UID length of the device family. No operation requires it. -/
def uidLenDevice : Nat := 7

/-- `UID_LEN_MAX` (R7): the longest UID `KDF` accepts. -/
def uidLenMax : Nat := 32

/-- The most bytes `CSUM` sums (R82, R83). -/
def csumLenMax : Nat := 32

/-- `KDF_ROUNDS` (R8). -/
def kdfRounds : Nat := 8

/-- `ROT_A` (R8). -/
def rotA : Nat := 25

/-- `ROT_B` (R8). -/
def rotB : Nat := 10

/-- `TYPE_MSG` (R9): type byte of outgoing and response frames. -/
def typeMsg : Byte := 0x55

/-- `TYPE_EVT` (R9): type byte of event frames. -/
def typeEvt : Byte := 0x56

/-- `LEN_MAX` (R10): the largest length byte `DEC` accepts. -/
def lenMax : Nat := 29

/-- `ENC_PAYLOAD_MAX` (R10; 28 loses, spec/90_conflicts.md C3). -/
def encPayloadMax : Nat := 27

/-- Offset of the first payload byte of an outgoing or a response frame (R66, R67, C4). -/
def msgPayloadAt : Nat := 4

/-- Offset of the first payload byte of an event frame (R68, C2). -/
def evtPayloadAt : Nat := 2

/-- Header bytes that the length byte of an outgoing or a response frame counts (R66, R67). -/
def msgHeaderLen : Nat := 2

end Sys2Proof.Machine
end

