-- ==== Sys2Proof/Machine/Memory.lean ====
section
/-! DEFINITION. The 32-byte spaces `IN`, `OUT` and `TMPL` and their access primitives (spec/00_scope.md R13,
spec/20_memory.md R40, R54). -/

namespace Sys2Proof.Machine

/-- What an index that no cell lists reads as: 0x00, the reset content of `OUT` (R37) and what `.in`
leaves in the bytes of `IN` that it does not list (R76). -/
def unlisted : Byte := 0x00

/-- `B[a]`. -/
def readByte : Memory → Nat → Byte
  | [], _ => unlisted
  | (k, v) :: m, a => if k = a then v else readByte m a

/-- The space without any cell at `a`. -/
def eraseByte (m : Memory) (a : Nat) : Memory := m.filter fun c => c.1 != a

/-- The cell put before the first cell of a greater index. -/
def insertCell (c : Host.Cell) : Memory → Memory
  | [] => [c]
  | d :: m => if c.1 < d.1 then c :: d :: m else d :: insertCell c m

/-- `B[a] <- v`. Writing what an unlisted index reads as removes the cell. -/
def writeByte (m : Memory) (a : Nat) (v : Byte) : Memory :=
  if v = unlisted then eraseByte m a else insertCell (a, v) (eraseByte m a)

/-- `MemWrite(B, a, len bs, bs)`, in rising order of the index. -/
def writeBytes (m : Memory) (a : Nat) : List Byte → Memory
  | [] => m
  | b :: bs => writeBytes (writeByte m a b) (a + 1) bs

/-- `MemRead(B, a, n)`. -/
def readBytes (m : Memory) (a n : Nat) : List Byte := (List.range n).map fun j => readByte m (a + j)

/-- `B[a .. b)`, empty when `b <= a`. -/
def slice (m : Memory) (a b : Nat) : List Byte := readBytes m a (b - a)

/-- A space that holds `bs` from index 0 and 0x00 beyond. -/
def ofBytes (bs : List Byte) : Memory := writeBytes [] 0 bs

/-- A wire frame as a space: the index is the frame offset (R41). -/
def ofWire (f : WireFrame) : Memory := ofBytes f.toList

/-- A byte list as a wire frame, 0x00 beyond its end (a frame has no byte past offset 31). -/
def wireOf (bs : List Byte) : WireFrame :=
  ⟨⟨(bs ++ List.replicate 32 0x00).take 32⟩, by simp⟩

/-- Cells with strictly rising indices from `lo` to 31, none listing what an unlisted index reads as. -/
def cellsFrom (lo : Nat) : Memory → Bool
  | [] => true
  | c :: m => decide (lo ≤ c.1) && decide (c.1 < frameSize) && c.2 != unlisted && cellsFrom (c.1 + 1) m

end Sys2Proof.Machine

/-- The canonical form of a 32-byte space (R40: indices 0..31): equal spaces are equal data. -/
def Sys2Proof.Memory.wf (m : Sys2Proof.Memory) : Bool := Sys2Proof.Machine.cellsFrom 0 m
end

