-- ==== Sys2Proof/Machine/Bits.lean ====
section
/-! DEFINITION. Arithmetic and byte-order primitives (spec/00_scope.md R14, R15; spec/40_checksum.md R80).
`+8`, `+32` and `-32` are the wrapping addition and subtraction of `BitVec`. -/

namespace Sys2Proof.Machine

/-- `Checksum(s)`: the exact sum of the bytes, reduced once mod 256 (R80). -/
def checksum (bs : List Byte) : Byte := BitVec.ofNat 8 (bs.map BitVec.toNat).sum

/-- `rotr32(x, k)` for `0 < k < 32` (R14). -/
def rotr32 (x : Word) (k : Nat) : Word := x >>> k ||| x <<< (32 - k)

/-- `le32(B, a)`: the least significant byte lies lowest (R15, R43). -/
def le32 (m : Memory) (a : Nat) : Word :=
  (readByte m a).setWidth 32 ||| (readByte m (a + 1)).setWidth 32 <<< 8 |||
    (readByte m (a + 2)).setWidth 32 <<< 16 ||| (readByte m (a + 3)).setWidth 32 <<< 24

/-- `be32bytes(v)`: most significant byte first (R15, R44), the reverse of `le32`'s order. -/
def be32bytes (v : Word) : List Byte :=
  [v.extractLsb' 24 8, v.extractLsb' 16 8, v.extractLsb' 8 8, v.extractLsb' 0 8]

end Sys2Proof.Machine
end

