-- ==== Sys2Proof/Syntax.lean ====
section
/-! DEFINITION. Syntax: the operations and wire frames of spec/opcode_table.json, the units the host can
present to the block, and the names the spec gives errors, frame kinds, commands and events. -/

namespace Sys2Proof

/-- One constructor per row of spec/opcode_table.json. The first four are request words
(spec/30_encoding.md R61 to R63). The last three are the table's wire-frame rows, which are data
and not requests: `FRAME.OUT` is what `ENC` writes, `FRAME.RESP` and `FRAME.EVT` are what `DEC` reads
(R66 to R68; log entry 2). -/
inductive Instr where
  /-- `CSUM n`: checksum of `IN[0 .. n)` (R82). -/
  | csum (n : BitVec 6)
  /-- `ENC cmd, mid, n`: outgoing frame with payload `IN[0 .. n)` (R90). -/
  | enc (cmd mid : Byte) (n : BitVec 6)
  /-- `DEC`: validate and parse the 32 bytes of `IN` (R100). -/
  | dec
  /-- `KDF n`: password of the UID `IN[0 .. n)` (R120). -/
  | kdf (n : BitVec 6)
  /-- `FRAME.OUT`: the outgoing frame of command `cmd`, message id `mid` and payload `p` (R66). -/
  | frameOut (cmd mid : Byte) (p : List Byte)
  /-- `FRAME.RESP`: a received response frame, all 32 bytes of it, padding included (R67). -/
  | frameResp (f : WireFrame)
  /-- `FRAME.EVT`: a received event frame, all 32 bytes of it, padding included (R68). -/
  | frameEvt (f : WireFrame)
  deriving DecidableEq, Repr

/-- What the host can present to the block as one unit: a request word, which executes on the operand
buffer `IN` presented with it (R60), or one of the table's 32-byte wire frames with the direction it
travels in, which its bytes alone do not tell (both 0x55 layouts share their type byte; log entry 2). -/
inductive Presented where
  | request (req : Word)
  | outgoing (f : WireFrame)
  | received (f : WireFrame)
  deriving DecidableEq, Repr

/-- The six errors a request can raise (spec/60_exceptions.md R141). -/
inductive Error where
  | payloadTooLarge
  | frameTooLarge
  | checksumMismatch
  | unknownFrameType
  | lengthOutOfRange
  | illegalRequest
  deriving DecidableEq, Repr

/-- Why the decoder gives no instruction. -/
inductive Reject where
  /-- The unit raises this error of the block (R65, R100). -/
  | raises (e : Error)
  /-- The 32 bytes are not an outgoing frame of R66, so no `ENC` writes them. -/
  | notOutgoing
  deriving DecidableEq, Repr

/-- The variant of the last decoded frame (spec/10_state.md R26). -/
inductive Kind where
  | none
  | response
  | event
  deriving DecidableEq, Repr

/-- The command codes the spec names (R72); the block does not interpret them. -/
inductive Command where
  | wake | seed | challenge | color | getColor | fade | flash | fadeRandom | colorAll
  | listTags | readTag | writeTag | password | active
  deriving DecidableEq, Repr

/-- The event and status codes the spec names (R73); the block does not interpret them. -/
inductive EventCode where
  | success | ledChange | tagNotFound | minifigScan | tagRead | connected
  deriving DecidableEq, Repr

end Sys2Proof
end

