-- ==== Sys2Proof/Machine/Frame.lean ====
section
/-! DEFINITION. The frame layouts shared by the operations and the decoder: the checks every received
buffer passes in order (spec/42_frame_decode.md R101 to R104) and the bytes of an outgoing frame
(spec/30_encoding.md R66). -/

namespace Sys2Proof.Machine

/-- The length byte `L`, always at offset 1 (R101). -/
def lengthByte (m : Memory) : Nat := (readByte m 1).toNat

/-- Offset of the checksum byte of a frame of length byte `L` (R70). -/
def checksumAt (L : Nat) : Nat := 2 + L

/-- The checksum of a frame of length byte `L`: type and length bytes included, the checksum byte
and the padding excluded (R71). -/
def frameChecksum (m : Memory) (L : Nat) : Byte := checksum (slice m 0 (checksumAt L))

/-- Which layout a frame with a correct checksum has, by its type byte (R69, R104). -/
def frameKind (m : Memory) : Except Error Kind :=
  if readByte m 0 = typeEvt then .ok .event
  else if readByte m 0 = typeMsg then .ok .response
  else .error .unknownFrameType

/-- The three checks of a received buffer in their order: length, checksum, type (R100, R143). -/
def classify (m : Memory) : Except Error Kind :=
  if lenMax < lengthByte m then .error .frameTooLarge
  else if readByte m (checksumAt (lengthByte m)) ≠ frameChecksum m (lengthByte m) then
    .error .checksumMismatch
  else frameKind m

/-- The outgoing frame's bytes up to its last payload byte (R66; command at 2, message id at 3, C1). -/
def outgoingHead (cmd mid : Byte) (p : List Byte) : List Byte :=
  [typeMsg, BitVec.ofNat 8 (msgHeaderLen + p.length), cmd, mid] ++ p

/-- The outgoing frame's bytes up to its checksum byte (R66). -/
def outgoingBytes (cmd mid : Byte) (p : List Byte) : List Byte :=
  outgoingHead cmd mid p ++ [checksum (outgoingHead cmd mid p)]

end Sys2Proof.Machine
end

