-- ==== Sys2Proof/WellFormed.lean ====
section
/-! DEFINITION. Which terms of `Instr` stand for a row of the table. A request's fields take every value
their bits admit (spec/30_encoding.md R64); a wire frame has its row's layout (R66 to R68). -/

namespace Sys2Proof

/-- Whether 32 received bytes pass the checks of R101 to R104 and have the layout `k`. -/
def WireFrame.hasKind (f : WireFrame) (k : Kind) : Bool :=
  match Machine.classify (Machine.ofWire f) with
  | .ok k' => k' == k
  | .error _ => false

/-- An instruction that some presented unit encodes. -/
def Instr.wellFormed : Instr → Bool
  | .csum _ => true
  | .enc _ _ _ => true
  | .dec => true
  | .kdf _ => true
  | .frameOut _ _ p => decide (p.length ≤ Machine.encPayloadMax)
  | .frameResp f => f.hasKind .response
  | .frameEvt f => f.hasKind .event

end Sys2Proof
end

