-- ==== Sys2Proof/Decode.lean ====
section
/-! DEFINITION. The decoder of a presented unit, total on every unit and rejecting by name, and after it the
encoder (spec/30_encoding.md R61 to R71, R76, R77). -/

namespace Sys2Proof

/-- `REQ[3:0]` (R61). -/
def reqOp (req : Word) : BitVec 4 := req.extractLsb' 0 4

/-- `REQ[7:4]`, reserved (R61). -/
def reqRsv0 (req : Word) : BitVec 4 := req.extractLsb' 4 4

/-- `REQ[13:8]` (R61). -/
def reqN (req : Word) : BitVec 6 := req.extractLsb' 8 6

/-- `REQ[15:14]`, reserved (R61). -/
def reqRsv1 (req : Word) : BitVec 2 := req.extractLsb' 14 2

/-- `REQ[23:16]` (R61). -/
def reqCmd (req : Word) : Byte := req.extractLsb' 16 8

/-- `REQ[31:24]` (R61). -/
def reqMid (req : Word) : Byte := req.extractLsb' 24 8

/-- The operations by their OP value, each with the fields it does not use held to 0 (R62, R63). -/
def decodeOp (req : Word) : Except Reject Instr :=
  match reqOp req with
  | 0x0#4 => if reqCmd req ≠ 0 ∨ reqMid req ≠ 0 then .error (.raises .illegalRequest) else .ok (.csum (reqN req))
  | 0x1#4 => .ok (.enc (reqCmd req) (reqMid req) (reqN req))
  | 0x2#4 =>
    if reqN req ≠ 0 ∨ reqCmd req ≠ 0 ∨ reqMid req ≠ 0 then .error (.raises .illegalRequest) else .ok .dec
  | 0x3#4 => if reqCmd req ≠ 0 ∨ reqMid req ≠ 0 then .error (.raises .illegalRequest) else .ok (.kdf (reqN req))
  | _ => .error (.raises .illegalRequest)

/-- Request decode in the order of R65: reserved OP, reserved fields, then the operation's own fields. -/
def decodeRequest (req : Word) : Except Reject Instr :=
  if 4 ≤ (reqOp req).toNat then .error (.raises .illegalRequest)
  else if reqRsv0 req ≠ 0 ∨ reqRsv1 req ≠ 0 then .error (.raises .illegalRequest)
  else decodeOp req

/-- A received buffer, by its type byte after the length and checksum checks (R69, R100). -/
def decodeReceived (f : WireFrame) : Except Reject Instr :=
  match Machine.classify (Machine.ofWire f) with
  | .ok .response => .ok (.frameResp f)
  | .ok .event => .ok (.frameEvt f)
  | .ok .none => .error (.raises .unknownFrameType)
  | .error e => .error (.raises e)

/-- Whether 32 bytes are an outgoing frame: type byte, a length byte that `ENC` can write, the checksum
at `2+L` and 0x00 padding (R66). -/
def isOutgoing (m : Memory) : Bool :=
  let L := Machine.lengthByte m
  Machine.readByte m 0 == Machine.typeMsg && decide (Machine.msgHeaderLen ≤ L) && decide (L ≤ Machine.lenMax) &&
    Machine.readByte m (Machine.checksumAt L) == Machine.frameChecksum m L &&
    (Machine.slice m (Machine.checksumAt L + 1) Machine.frameSize).all (· == 0x00)

/-- An outgoing frame's command, message id and payload (R66). -/
def decodeOutgoing (f : WireFrame) : Except Reject Instr :=
  let m := Machine.ofWire f
  if isOutgoing m then
    .ok (.frameOut (Machine.readByte m 2) (Machine.readByte m 3)
      (Machine.slice m Machine.msgPayloadAt (Machine.checksumAt (Machine.lengthByte m))))
  else .error .notOutgoing

/-- The decoder. -/
def decode : Presented → Except Reject Instr
  | .request req => decodeRequest req
  | .outgoing f => decodeOutgoing f
  | .received f => decodeReceived f

/-- A request word from its fields, reserved fields 0 (R61; R76's second column). -/
def requestWord (op : BitVec 4) (n : BitVec 6) (cmd mid : Byte) : Word :=
  mid.setWidth 32 <<< 24 ||| cmd.setWidth 32 <<< 16 ||| n.setWidth 32 <<< 8 ||| op.setWidth 32

/-- The encoder: the unit that a well-formed instruction is. -/
def encode : Instr → Presented
  | .csum n => .request (requestWord 0x0 n 0 0)
  | .enc cmd mid n => .request (requestWord 0x1 n cmd mid)
  | .dec => .request (requestWord 0x2 0 0 0)
  | .kdf n => .request (requestWord 0x3 n 0 0)
  | .frameOut cmd mid p => .outgoing (Machine.wireOf (Machine.outgoingBytes cmd mid p))
  | .frameResp f => .received f
  | .frameEvt f => .received f

/-- Byte `i` of a number whose first byte is its least significant one. -/
def byteOfNat (w i : Nat) : Byte := BitVec.ofNat 8 (w / 2 ^ (8 * i))

/-- The presented unit whose bits are `w`: up to 32 bits a request word, which reaches the block whole
(R60: no byte order applies to it); more than 32 bits a received frame, byte `i` at offset `i` (R41). -/
def presentedOfWord (nbits w : Nat) : Presented :=
  if nbits ≤ 32 then .request (BitVec.ofNat 32 w)
  else .received (Machine.wireOf ((List.range 32).map (byteOfNat w)))

/-- The instruction the decoder reads from a table row's bits. -/
def decodeTableWord (nbits w : Nat) : Option Instr :=
  match decode (presentedOfWord nbits w) with
  | .ok i => some i
  | .error _ => none

end Sys2Proof
end

