-- ==== Sys2Proof/Config.lean ====
section
/-! DEFINITION. What the spec leaves to the implementation: the one OPEN parameter, `KDF_TEMPLATE`
(spec/00_scope.md R6, spec/92_eei_decisions.md D11). The fixed constants of R5 to R10 stand in
Machine/Params.lean, where a correction touches one place (spec/91_not_in_source.md N8). -/

namespace Sys2Proof

/-- `KDF_TEMPLATE`, the 32 constant bytes the mixer starts from. The spec does not give them (R6, D11,
N2), so nothing in Lean can evaluate them: every claim holds for every template. Log entry 1. -/
opaque Config.kdfTemplate : Vector (BitVec 8) 32

end Sys2Proof
end

