-- ==== Sys2Proof/Machine/State.lean ====
section
/-! DEFINITION. The machine's state (spec/10_state.md), its value at reset (R37), and the reasons a step can
stop. -/

namespace Sys2Proof.Machine

/-- The result record `R`, registers 0 to 8 of R23. -/
structure ResultRecord where
  /-- 0 STATUS: outcome of the last request (R24). -/
  status : BitVec 8
  /-- 1 VALID: 1 once a request has completed since reset (R25). -/
  valid : BitVec 1
  /-- 2 KIND: frame variant of the last `DEC` (R26). -/
  kind : BitVec 2
  /-- 3 CODE: event or status code of the last `DEC` (R27). -/
  code : BitVec 8
  /-- 4 MID: message id of the last `DEC` (R28). -/
  mid : BitVec 8
  /-- 5 PLEN: payload length of the last `DEC` (R29). -/
  plen : BitVec 6
  /-- 6 CSUM: checksum of the last `CSUM`, `ENC` or `DEC` (R30). -/
  csum : BitVec 8
  /-- 7 PWD: password of the last `KDF`, as a number (R31). -/
  pwd : BitVec 32
  /-- 8 OUT: the 32-byte output buffer (R32). -/
  out : Memory
  deriving DecidableEq, Repr

/-- The fresh record every request starts from: every field 0, OUT all 0 (R35). -/
def ResultRecord.zero : ResultRecord :=
  { status := 0, valid := 0, kind := 0, code := 0, mid := 0, plen := 0, csum := 0, pwd := 0, out := [] }

/-- One input of the host (log entries 2 and 3). -/
inductive HostLine where
  /-- A unit presented to the block: a request word, or one of the table's wire frames. -/
  | present (u : Presented)
  /-- `.in b0 b1 ...` of R76. -/
  | setIn (bytes : List Byte)
  /-- `.in_from_out` of R76. -/
  | inFromOut
  /-- Reset of the block, which happens between requests (R160). -/
  | reset
  deriving DecidableEq, Repr

/-- The block, which holds `result` and `tmpl` and nothing else (R20, R36), beside the host that
drives it, whose two fields are the model's own (log entry 3). -/
structure State where
  /-- The result record `R` (R23). -/
  result : ResultRecord
  /-- `TMPL`, the read-only template (R34). -/
  tmpl : Memory
  /-- The host's: the operand buffer `IN` it presents with every request (R33, R76). -/
  inBuf : Memory
  /-- The host's: the lines still to come, the next one first. -/
  lines : List HostLine
  deriving DecidableEq, Repr

/-- Why a step stops at once. No operation of the block faults: its errors are STATUS values (R140). -/
inductive Fault where
  /-- The host's `.in` directive lists a byte at `index`, and `IN` has indices 0..31 (R40). Raised by
  that directive alone, never by an instruction. Safe: the spec gives no such access an effect. -/
  | noSuchIndex (index : Nat)
  deriving DecidableEq, Repr

/-- Why a unit has no meaning. -/
inductive Refusal where
  /-- An instruction without a meaning yet, by its mnemonic in the table. No arm answers it. Safe. -/
  | notModelled (mnemonic : String)
  /-- The host names 32 bytes as an outgoing frame which no `ENC` writes (R66). Raised by presenting such
  bytes, never by an instruction or a request word. Safe: the spec has no such frame. -/
  | notOutgoingFrame
  deriving DecidableEq, Repr

/-- The machine after reset: the record of R37, `TMPL` at `KDF_TEMPLATE` (R37, R161), and a host with
an all-zero `IN` and no line yet (DESIGN CHOICE, log entry 4; R33 gives `IN` no reset value). -/
def State.reset : State :=
  { result := ResultRecord.zero, tmpl := ofBytes Config.kdfTemplate.toList, inBuf := [], lines := [] }

end Sys2Proof.Machine
end

