-- ==== Sys2Proof/Machine/Flags.lean ====
section
/-! DEFINITION. The flag-like state STATUS, VALID and KIND: its values and how a request writes it
(spec/10_state.md R24 to R26, R38). -/

namespace Sys2Proof.Machine

/-- STATUS of a request that completes (R24). -/
def statusOk : BitVec 8 := 0x00

/-- STATUS of a request that raises `e` (R24, R141). -/
def errorStatus : Error → BitVec 8
  | .payloadTooLarge => 0x01
  | .frameTooLarge => 0x02
  | .checksumMismatch => 0x03
  | .unknownFrameType => 0x04
  | .lengthOutOfRange => 0x05
  | .illegalRequest => 0x06

/-- VALID before any request (R25, R37). -/
def validNone : BitVec 1 := 0

/-- VALID once a request has completed (R25). -/
def validSet : BitVec 1 := 1

/-- The KIND register's value for each variant (R26). -/
def kindBits : Kind → BitVec 2
  | .none => 0
  | .response => 1
  | .event => 2

end Sys2Proof.Machine
end

