-- ==== Sys2Proof/Machine/Operands.lean ====
section
/-! DEFINITION. Operand forms: the bytes of `IN` an operation takes and the single length check of each
operation that has one (spec/30_encoding.md R64, spec/60_exceptions.md R143). -/

namespace Sys2Proof.Machine

/-- `IN[0 .. n)`: the bytes to sum, the payload or the UID (R64). -/
def operandBytes (n : Nat) (inp : Memory) : List Byte := slice inp 0 n

/-- The result if `n` is at most `limit`, the operation's own length error otherwise (R64, R143). -/
def withinLimit (limit n : Nat) (e : Error) (r : ResultRecord) : Except Error ResultRecord :=
  if limit < n then .error e else .ok r

end Sys2Proof.Machine
end

