-- ==== Sys2Proof/Machine/Ops.lean ====
section
/-! DEFINITION. The operations every request shares: completing with a result, raising an error, reset, and
the host's accesses to the block. -/

namespace Sys2Proof.Machine

/-- The record an error leaves: its STATUS, every other field 0 (R144; VALID is set by the replacement). -/
def errorRecord (e : Error) : ResultRecord := { ResultRecord.zero with status := errorStatus e }

/-- The atomic replacement `R <- R'`, with `R'.VALID <- 1` before it (R35). -/
def replaceResult (r : ResultRecord) (s : State) : State := { s with result := { r with valid := validSet } }

/-- Taking an error, the only exception the block has: the record becomes the error's, and no control
is transferred, no state is saved and no mode changes (R140, R144, R146). There is no return from it:
nothing needs restoring, and the next request proceeds as after any other (R145, R147). -/
def raiseError (e : Error) (s : State) : State := replaceResult (errorRecord e) s

/-- The end of a request: its result, or the error it raised (R16, R35). -/
def complete (r : Except Error ResultRecord) (s : State) : State :=
  match r with
  | .ok r => replaceResult r s
  | .error e => raiseError e s

/-- Reset of the block: every result register at its reset value, `TMPL` unchanged (R160, R161). -/
def resetBlock (s : State) : State := { s with result := ResultRecord.zero }

/-- `.in b0 b1 ...`: the listed bytes from `IN[0]`, 0x00 in the rest (R76); no `IN[32]` exists (R40). -/
def presentIn (bytes : List Byte) (s : State) : Host.Outcome State Fault Refusal :=
  if frameSize < bytes.length then .fault (.noSuchIndex frameSize) else .next { s with inBuf := ofBytes bytes }

/-- `.in_from_out`: `IN` becomes the current `OUT` (R76, R167). -/
def presentOut (s : State) : State := { s with inBuf := s.result.out }

/-- What the host reads: the whole record of one request, without side effect (R47). -/
def hostRead (s : State) : ResultRecord := s.result

end Sys2Proof.Machine
end

