-- ==== Sys2Proof/Machine/Csum.lean ====
section
/-! DEFINITION. `CSUM` (spec/40_checksum.md R82, R83). -/

namespace Sys2Proof.Machine

/-- `CSUM-op(n, IN)` (R82). -/
def csumOp (n : Nat) (inp : Memory) : Except Error ResultRecord :=
  withinLimit csumLenMax n .lengthOutOfRange
    { ResultRecord.zero with csum := checksum (operandBytes n inp), status := statusOk }

/-- `CSUM n`. -/
def execCsum (n : BitVec 6) (s : State) : Host.Outcome State Fault Refusal :=
  .next (complete (csumOp n.toNat s.inBuf) s)

end Sys2Proof.Machine
end

