-- ==== Sys2Proof/Machine/Dec.lean ====
section
/-! DEFINITION. `DEC` and the frames it reads (spec/42_frame_decode.md R100 to R110). -/

namespace Sys2Proof.Machine

/-- The event layout: CODE is the length byte itself, PLEN is `L`, the payload starts at offset 2 (R105). -/
def eventRecord (inp : Memory) : ResultRecord :=
  { ResultRecord.zero with
    kind := kindBits .event
    code := readByte inp 1
    mid := 0
    plen := BitVec.ofNat 6 (lengthByte inp)
    out := writeBytes [] 0 (slice inp evtPayloadAt (checksumAt (lengthByte inp)))
    csum := frameChecksum inp (lengthByte inp)
    status := statusOk }

/-- The response layout: MID at offset 2, CODE at 3, the payload from 4, empty when `L < 2` (R106, R107;
`L - 2` is the natural-number difference, 0 when `L < 2`). -/
def responseRecord (inp : Memory) : ResultRecord :=
  { ResultRecord.zero with
    kind := kindBits .response
    code := readByte inp 3
    mid := readByte inp 2
    plen := BitVec.ofNat 6 (lengthByte inp - msgHeaderLen)
    out := writeBytes [] 0 (slice inp msgPayloadAt (checksumAt (lengthByte inp)))
    csum := frameChecksum inp (lengthByte inp)
    status := statusOk }

/-- `DEC-op(IN)`: the checks in DOC0's order, then the layout the type byte selects (R100, R143). -/
def decOp (inp : Memory) : Except Error ResultRecord :=
  match classify inp with
  | .error e => .error e
  | .ok .event => .ok (eventRecord inp)
  | .ok .response => .ok (responseRecord inp)
  | .ok .none => .error .unknownFrameType

/-- `DEC`. -/
def execDec (s : State) : Host.Outcome State Fault Refusal :=
  .next (complete (decOp s.inBuf) s)

/-- `FRAME.RESP`: a received buffer reaches the block as `DEC`'s `IN`, unchanged (R41, R67; log entry 2). -/
def execFrameResp (f : WireFrame) (s : State) : Host.Outcome State Fault Refusal :=
  .next (complete (decOp (ofWire f)) s)

/-- `FRAME.EVT`: a received buffer reaches the block as `DEC`'s `IN`, unchanged (R41, R68; log entry 2). -/
def execFrameEvt (f : WireFrame) (s : State) : Host.Outcome State Fault Refusal :=
  .next (complete (decOp (ofWire f)) s)

end Sys2Proof.Machine
end

