-- ==== Sys2Proof/Machine/Enc.lean ====
section
/-! DEFINITION. `ENC` and the frame it writes (spec/41_frame_encode.md R90 to R96, spec/30_encoding.md R66). -/

namespace Sys2Proof.Machine

/-- The frame up to its last payload byte, 0x00 beyond: `F[0 .. 4)`, then the payload from 4 (R90, R92). -/
def encHead (cmd mid : Byte) (p : List Byte) : Memory :=
  writeBytes
    (writeBytes [] 0 [typeMsg, BitVec.ofNat 8 (msgHeaderLen + p.length), cmd, mid])
    msgPayloadAt p

/-- The frame's checksum, over `F[0 .. 4+n)` (R93). -/
def encChecksum (cmd mid : Byte) (p : List Byte) : Byte :=
  checksum (slice (encHead cmd mid p) 0 (msgPayloadAt + p.length))

/-- The record `ENC` leaves for the payload `p`: the frame, its checksum byte also in CSUM (R90, R93). -/
def encRecord (cmd mid : Byte) (p : List Byte) : ResultRecord :=
  { ResultRecord.zero with
    out := writeByte (encHead cmd mid p) (msgPayloadAt + p.length) (encChecksum cmd mid p)
    csum := encChecksum cmd mid p
    status := statusOk }

/-- `ENC-op(cmd, mid, n, IN)` (R90, R91). -/
def encOp (cmd mid : Byte) (n : Nat) (inp : Memory) : Except Error ResultRecord :=
  withinLimit encPayloadMax n .payloadTooLarge (encRecord cmd mid (operandBytes n inp))

/-- `ENC cmd, mid, n`. -/
def execEnc (cmd mid : Byte) (n : BitVec 6) (s : State) : Host.Outcome State Fault Refusal :=
  .next (complete (encOp cmd mid n.toNat s.inBuf) s)

/-- `FRAME.OUT`: the layout's effect at the block is `ENC`'s writing of it, with the frame's own payload
as the operand bytes (R66, R90; log entry 2). -/
def execFrameOut (cmd mid : Byte) (p : List Byte) (s : State) : Host.Outcome State Fault Refusal :=
  .next (complete (withinLimit encPayloadMax p.length .payloadTooLarge (encRecord cmd mid p)) s)

end Sys2Proof.Machine
end

