-- ==== Sys2Proof/Machine/Kdf.lean ====
section
/-! DEFINITION. `KDF` (spec/43_key_derivation.md R120 to R127). -/

namespace Sys2Proof.Machine

/-- The working copy `T`: the template with the UID over its first bytes; `TMPL` keeps its value (R121). -/
def kdfOverlay (tmpl : Memory) (uid : List Byte) : Memory := writeBytes tmpl 0 uid

/-- Round `i` on the accumulator `v2` (R123): word `w` little-endian, both rotations and the subtracted
term from the value before the update, every sum and difference mod 2^32 (R126). -/
def kdfRound (T : Memory) (v2 : Word) (i : Nat) : Word :=
  ((le32 T (4 * i) + rotr32 v2 rotA) + rotr32 v2 rotB) - v2

/-- The accumulator after all rounds, from 0 (R122, R123). -/
def kdfMix (T : Memory) : Word := (List.range kdfRounds).foldl (kdfRound T) 0

/-- The record `KDF` leaves for the password `v2`: PWD the number, `OUT[0 .. 4)` its bytes (R124). -/
def kdfRecord (v2 : Word) : ResultRecord :=
  { ResultRecord.zero with pwd := v2, out := writeBytes [] 0 (be32bytes v2), status := statusOk }

/-- `KDF-op(n, IN, TMPL)` (R120, R125). -/
def kdfOp (n : Nat) (inp tmpl : Memory) : Except Error ResultRecord :=
  withinLimit uidLenMax n .lengthOutOfRange (kdfRecord (kdfMix (kdfOverlay tmpl (operandBytes n inp))))

/-- `KDF n`. -/
def execKdf (n : BitVec 6) (s : State) : Host.Outcome State Fault Refusal :=
  .next (complete (kdfOp n.toNat s.inBuf s.tmpl) s)

end Sys2Proof.Machine
end

