-- ==== Sys2Proof/Machine/Dispatch.lean ====
section
/-! DEFINITION. One arm per constructor of `Instr`, each one direct call of its meaning. -/

namespace Sys2Proof.Machine

def exec (i : Instr) (s : State) : Host.Outcome State Fault Refusal :=
  match i with
  | .csum n => Sys2Proof.Machine.execCsum n s
  | .enc cmd mid n => Sys2Proof.Machine.execEnc cmd mid n s
  | .dec => Sys2Proof.Machine.execDec s
  | .kdf n => Sys2Proof.Machine.execKdf n s
  | .frameOut cmd mid p => Sys2Proof.Machine.execFrameOut cmd mid p s
  | .frameResp f => Sys2Proof.Machine.execFrameResp f s
  | .frameEvt f => Sys2Proof.Machine.execFrameEvt f s

end Sys2Proof.Machine
end

