-- ==== Sys2Proof/Machine/HostPort.lean ====
section
/-! DEFINITION. The block's single port: what each line of the host does (spec/20_memory.md R51,
spec/30_encoding.md R65, R76, spec/60_exceptions.md R152, R153). -/

namespace Sys2Proof.Machine

/-- A presented unit: decoded and executed in one atomic step (R51, R170), or the error its decode raises
(R65, R143). -/
def presentUnit (u : Presented) (s : State) : Host.Outcome State Fault Refusal :=
  match decode u with
  | .ok i => exec i s
  | .error (.raises e) => .next (raiseError e s)
  | .error .notOutgoing => .refused .notOutgoingFrame

/-- One line of the host. Directives and reset are no requests and leave VALID as R25 and R160 say. -/
def runLine (l : HostLine) (s : State) : Host.Outcome State Fault Refusal :=
  match l with
  | .present u => presentUnit u s
  | .setIn bytes => presentIn bytes s
  | .inFromOut => .next (presentOut s)
  | .reset => .next (resetBlock s)

/-- Between requests the block holds its result record and does nothing else (R153). -/
def idle (s : State) : Host.Outcome State Fault Refusal := .next s

end Sys2Proof.Machine
end

