-- ==== Sys2Proof/Machine/Step.lean ====
section
/-! DEFINITION. One step: the host's next line, in issue order (spec/20_memory.md R51). -/

namespace Sys2Proof.Machine

/-- One step of the machine. -/
def step (s : State) : Host.Outcome State Fault Refusal :=
  match s.lines with
  | [] => idle s
  | l :: rest => runLine l { s with lines := rest }

/-- `s` with the unit of `nbits` bits `w` as the host's next line, before the lines it had. The operand
buffer `IN` is the one the host presents in `s`. Log entry 5. -/
def State.withFetchWord (s : State) (nbits w : Nat) : State :=
  { s with lines := .present (presentedOfWord nbits w) :: s.lines }

end Sys2Proof.Machine
end

