-- ==== Sys2Proof/Machine/HostProgram.lean ====
section
/-! DEFINITION. Host programs: the request syntax and directives of spec/30_encoding.md R76, the code names of
R72 and R73, the wake payload of R74, and the register numbers of spec/10_state.md R23. -/

namespace Sys2Proof.Machine

/-- Command code values (R72). -/
def commandCode : Command → Byte
  | .wake => 0xB0
  | .seed => 0xB1
  | .challenge => 0xB3
  | .color => 0xC0
  | .getColor => 0xC1
  | .fade => 0xC2
  | .flash => 0xC3
  | .fadeRandom => 0xC4
  | .colorAll => 0xC8
  | .listTags => 0xD0
  | .readTag => 0xD2
  | .writeTag => 0xD3
  | .password => 0xE1
  | .active => 0xE5

/-- Event and status code values (R73). -/
def eventCodeValue : EventCode → Byte
  | .success => 0x00
  | .ledChange => 0x01
  | .tagNotFound => 0x02
  | .minifigScan => 0x0B
  | .tagRead => 0x12
  | .connected => 0x19

/-- The wake payload, the 13 bytes of the ASCII string of R74. -/
def wakePayload : List Byte :=
  [0x28, 0x63, 0x29, 0x20, 0x4C, 0x45, 0x47, 0x4F, 0x20, 0x32, 0x30, 0x31, 0x34]

/-- A line of a host program (R76). -/
inductive AsmLine where
  | csum (n : BitVec 6)
  | enc (cmd mid : Byte) (n : BitVec 6)
  | dec
  | kdf (n : BitVec 6)
  /-- `REQ 0xhhhhhhhh`, a raw request word. -/
  | req (w : Word)
  /-- `.in b0 b1 ...` -/
  | setIn (bytes : List Byte)
  /-- `.in_from_out` -/
  | inFromOut
  /-- `WAKE mid`, the one pseudo-instruction. -/
  | wake (mid : Byte)
  deriving DecidableEq, Repr

/-- What one line of a host program makes the host do (R76). -/
def assembleLine : AsmLine → List HostLine
  | .csum n => [.present (encode (.csum n))]
  | .enc cmd mid n => [.present (encode (.enc cmd mid n))]
  | .dec => [.present (encode .dec)]
  | .kdf n => [.present (encode (.kdf n))]
  | .req w => [.present (.request w)]
  | .setIn bytes => [.setIn bytes]
  | .inFromOut => [.inFromOut]
  | .wake mid =>
    [.setIn wakePayload, .present (encode (.enc (commandCode .wake) mid (BitVec.ofNat 6 wakePayload.length)))]

/-- The host's lines for a whole program, in order (R22). -/
def assemble (p : List AsmLine) : List HostLine := p.flatMap assembleLine

/-- The result registers by their numbers (R23). -/
inductive ResultReg where
  | status | valid | kind | code | mid | plen | csum | pwd | out
  deriving DecidableEq, Repr

/-- A register's number (R23). -/
def regNumber : ResultReg → Nat
  | .status => 0
  | .valid => 1
  | .kind => 2
  | .code => 3
  | .mid => 4
  | .plen => 5
  | .csum => 6
  | .pwd => 7
  | .out => 8

/-- The register of a number (R23); there is none beyond 8. -/
def regOfNumber : Nat → Option ResultReg
  | 0 => some .status
  | 1 => some .valid
  | 2 => some .kind
  | 3 => some .code
  | 4 => some .mid
  | 5 => some .plen
  | 6 => some .csum
  | 7 => some .pwd
  | 8 => some .out
  | _ => none

/-- What the host reads in one register: a number of the register's width, or `OUT`'s 32 bytes. -/
inductive RegValue where
  | bits (width value : Nat)
  | bytes (b : List Byte)
  deriving DecidableEq, Repr

/-- The host's read of one register of the current record, without side effect (R23, R47). -/
def readReg (s : State) : ResultReg → RegValue
  | .status => .bits 8 (hostRead s).status.toNat
  | .valid => .bits 1 (hostRead s).valid.toNat
  | .kind => .bits 2 (hostRead s).kind.toNat
  | .code => .bits 8 (hostRead s).code.toNat
  | .mid => .bits 8 (hostRead s).mid.toNat
  | .plen => .bits 6 (hostRead s).plen.toNat
  | .csum => .bits 8 (hostRead s).csum.toNat
  | .pwd => .bits 32 (hostRead s).pwd.toNat
  | .out => .bytes (slice (hostRead s).out 0 frameSize)

end Sys2Proof.Machine
end

