-- ==== Sys2Proof/Safety.lean ====
section
/-! DEFINITION. What every run keeps: a result record that some single request leaves (spec/10_state.md R24
to R32, spec/60_exceptions.md R144) and 32-byte spaces in canonical form (spec/20_memory.md R40, R48). -/

namespace Sys2Proof.Machine

/-- The record after reset or after a request that raised an error (R37, R144). -/
def ResultRecord.isBare (r : ResultRecord) : Prop :=
  r.kind = 0 ∧ r.code = 0 ∧ r.mid = 0 ∧ r.plen = 0 ∧ r.csum = 0 ∧ r.pwd = 0 ∧ r.out = []

/-- The record of a decoded event frame (R26, R28, R29, R31, R32, R105). -/
def ResultRecord.isEvent (r : ResultRecord) : Prop :=
  r.kind = 2 ∧ r.mid = 0 ∧ r.plen.toNat ≤ 29 ∧ r.code.toNat = r.plen.toNat ∧ r.pwd = 0 ∧
    ∀ a, r.plen.toNat ≤ a → readByte r.out a = 0

/-- The record of a decoded response frame (R26, R29, R31, R32, R106, R107). -/
def ResultRecord.isResponse (r : ResultRecord) : Prop :=
  r.kind = 1 ∧ r.plen.toNat ≤ 27 ∧ r.pwd = 0 ∧ ∀ a, r.plen.toNat ≤ a → readByte r.out a = 0

/-- The record of `CSUM`, `ENC` or `KDF` without the fields of `DEC` (R26 to R29). -/
def ResultRecord.isUndecoded (r : ResultRecord) : Prop :=
  r.kind = 0 ∧ r.code = 0 ∧ r.mid = 0 ∧ r.plen = 0

/-- The record of a successful `CSUM`: no password, OUT all 0 (R30 to R32). -/
def ResultRecord.isSum (r : ResultRecord) : Prop :=
  r.isUndecoded ∧ r.pwd = 0 ∧ r.out = []

/-- The record of a successful `ENC`: OUT holds a frame of R66 whose checksum byte CSUM repeats. -/
def ResultRecord.isFrame (r : ResultRecord) : Prop :=
  r.isUndecoded ∧ r.pwd = 0 ∧ isOutgoing r.out = true ∧
    r.csum = readByte r.out (checksumAt (lengthByte r.out))

/-- The record of a successful `KDF`: OUT holds the password's bytes, most significant first (R31, R32). -/
def ResultRecord.isPassword (r : ResultRecord) : Prop :=
  r.isUndecoded ∧ r.csum = 0 ∧ r.out = ofBytes (be32bytes r.pwd)

/-- A record that reset or one request leaves (R36): VALID 0 only with the reset record, an error STATUS
only with every other field 0, STATUS OK only with one operation's fields. -/
def ResultRecord.Coherent (r : ResultRecord) : Prop :=
  (r.valid = 0 ∧ r.status = 0 ∧ r.isBare) ∨
    (r.valid = 1 ∧ (∃ e, r.status = errorStatus e) ∧ r.isBare) ∨
    (r.valid = 1 ∧ r.status = 0 ∧ (r.isSum ∨ r.isFrame ∨ r.isEvent ∨ r.isResponse ∨ r.isPassword))

/-- The machine's invariant: a coherent record, and every 32-byte space in canonical form. -/
def State.Inv (s : State) : Prop :=
  s.result.Coherent ∧ s.result.out.wf = true ∧ s.tmpl.wf = true ∧ s.inBuf.wf = true

end Sys2Proof.Machine
end

