-- ==== Sys2Proof/Certificates/Slice0/Obligations.lean ====
section
/-! DEFINITION. What the provers are asked to show. Each statement's docstring names the rule of spec/ it
formalises, or the sections it rests on and the log entry where it states the model's own choice. -/

namespace Sys2Proof.Claims

open Sys2Proof.Machine

/-- `IN[i]` of the request that the next line presents. -/
abbrev inAt (s : State) (i : Nat) : Byte := readByte s.inBuf i

/-- The sum of `B[0 .. k)` mod 256, summed exactly and reduced once (R80). -/
def byteSum (m : Memory) (k : Nat) : Byte := BitVec.ofNat 8 (∑ i ∈ Finset.range k, (readByte m i).toNat)

/-- The request replaces the result record by `r` and changes nothing else. -/
def leaves (s : State) (r : ResultRecord) : Host.Outcome State Fault Refusal := .next { s with result := r }

/-- The request leaves the record of R144 for the STATUS value `e`. -/
def fails (s : State) (e : BitVec 8) : Host.Outcome State Fault Refusal :=
  leaves s { status := e, valid := 1, kind := 0, code := 0, mid := 0, plen := 0, csum := 0, pwd := 0, out := [] }

/-- Two spaces with the same bytes at offsets `a` to `b - 1`. -/
def sameOn (m m' : Memory) (a b : Nat) : Prop := ∀ i, a ≤ i → i < b → readByte m i = readByte m' i

end Sys2Proof.Claims

open Sys2Proof Sys2Proof.Machine Sys2Proof.Claims

/-! ### Reset, the step and the host's port -/

/-- R37: every register's value after reset. `OUT` is read byte by byte, `TMPL` is the parameter. -/
def Obligations.ResetGivesTheTableOfResetValues : Prop :=
  let r := State.reset.result
  r.status = 0x00 ∧ r.valid = 0 ∧ r.kind = 0 ∧ r.code = 0x00 ∧ r.mid = 0x00 ∧ r.plen = 0 ∧ r.csum = 0x00 ∧
    r.pwd = 0x00000000 ∧ (∀ a, a < 32 → readByte r.out a = 0x00) ∧
    ∀ a, a < 32 → readByte State.reset.tmpl a = Config.kdfTemplate.toList.getD a 0

/-- 70_reset_and_hazards.md section 1: reset, between requests, puts every register of the result record at
its reset value. That reset reaches the block as a line of the host is the model's (log entry 3). -/
def Obligations.ResetLineClearsTheResultRecord : Prop :=
  ∀ (s : State) (rest : List HostLine), s.lines = .reset :: rest →
    step s = .next { s with
      lines := rest
      result := { status := 0, valid := 0, kind := 0, code := 0, mid := 0, plen := 0, csum := 0, pwd := 0, out := [] } }

/-- 10_state.md section 3, 70_reset_and_hazards.md section 1: `TMPL` has the parameter's value after reset, and no step
writes it, no request and no reset among them (the lines that steps take are log entry 3). -/
def Obligations.TemplateIsNeverWritten : Prop :=
  State.reset.tmpl = ofBytes Config.kdfTemplate.toList ∧ ∀ s t : State, step s = .next t → t.tmpl = s.tmpl

/-- R25: VALID is 0 after reset, 1 after every request, and only reset sets it back to 0. -/
def Obligations.ValidIsSetByRequestsAndClearedByReset : Prop :=
  State.reset.result.valid = 0 ∧
    (∀ (s : State) (req : Word) (rest : List HostLine), s.lines = .present (.request req) :: rest →
      ∃ t, step s = .next t ∧ t.result.valid = 1) ∧
    (∀ (s : State) (rest : List HostLine), s.lines = .reset :: rest →
      ∃ t, step s = .next t ∧ t.result.valid = 0) ∧
    ∀ s t : State, step s = .next t → s.result.valid = 1 → t.result.valid = 0 →
      ∃ rest, s.lines = .reset :: rest

/-- A step at a presented unit that decodes to a well-formed instruction is that instruction's execution,
the unit taken off the host's lines (70_reset_and_hazards.md R170; host lines are log entry 3,
wire frames among the units log entry 2). -/
def Obligations.StepRunsTheDecodedInstruction : Prop :=
  ∀ (s : State) (u : Presented) (i : Instr) (rest : List HostLine), s.lines = .present u :: rest →
    decode u = .ok i → i.wellFormed = true → step s = exec i { s with lines := rest }

/-- The interface of log entry 5: a table word placed for the next step is the instruction that runs. -/
def Obligations.PlacedWordIsTheNextInstruction : Prop :=
  ∀ (s : State) (w : Nat) (i : Instr), decodeTableWord 32 w = some i → step (s.withFetchWord 32 w) = exec i s

/-- With no line of the host left, the block holds its record and does nothing (60_exceptions.md section 6; the
lines are the model's, log entry 3). -/
def Obligations.IdleStepChangesNothing : Prop :=
  ∀ s : State, s.lines = [] → step s = .next s

/-- 30_encoding.md section 5, directives (that they are lines of the model's host is log entry 3): `.in` lists bytes from `IN[0]` and clears the rest;
`.in_from_out` copies `OUT`; neither touches the block. -/
def Obligations.DirectivesSetTheOperandBuffer : Prop :=
  (∀ (s : State) (bs : List Byte) (rest : List HostLine), s.lines = .setIn bs :: rest → bs.length ≤ 32 →
    ∃ inp, step s = .next { s with lines := rest, inBuf := inp } ∧
      (∀ i, i < bs.length → readByte inp i = bs.getD i 0) ∧ ∀ i, bs.length ≤ i → readByte inp i = 0x00) ∧
    ∀ (s : State) (rest : List HostLine), s.lines = .inFromOut :: rest →
      step s = .next { s with lines := rest, inBuf := s.result.out }

/-- Only a host's own slip stops a step (20_memory.md R40, 60_exceptions.md R140; log entries 2, 3 and 8): a `.in` directive
past index 31, or bytes named as an outgoing frame that are none. No request faults or is refused. -/
def Obligations.OnlyHostSlipsStopAStep : Prop :=
  ∀ s : State, (∃ t, step s = .next t) ∨
    (∃ bs rest, s.lines = .setIn bs :: rest ∧ 32 < bs.length ∧ step s = .fault (.noSuchIndex 32)) ∨
    (∃ f rest, s.lines = .present (.outgoing f) :: rest ∧ decode (.outgoing f) = .error .notOutgoing ∧
      step s = .refused .notOutgoingFrame)

/-! ### Encoding -/

/-- R62, R72, R76: a few request words of 95_test_vectors.md decode as its assembler lines say. -/
def Obligations.RequestWordsDecodeAsWritten : Prop :=
  decodeTableWord 32 0x00002000 = some (.csum 32) ∧
    decodeTableWord 32 0x01B00D01 = some (.enc (commandCode .wake) 0x01 13) ∧
    decodeTableWord 32 0x00000002 = some .dec ∧ decodeTableWord 32 0x00000703 = some (.kdf 7) ∧
    decodeTableWord 32 0x00000004 = none ∧ decodeTableWord 32 0x00000012 = none ∧
    decodeTableWord 32 0x00008001 = none ∧ decodeTableWord 32 0x00010100 = none ∧
    decodeTableWord 32 0x00000102 = none ∧ decodeTableWord 32 0x01000703 = none

/-- 30_encoding.md sections 1 and 5 (R61 to R65, R77): the four masks tell the request words apart, each
field is read from its own bits, and every other word is an illegal request. -/
def Obligations.RequestWordsAreToldApartByTheirMasks : Prop :=
  ∀ req : Word,
    (req &&& 0xFFFFC0FF = 0x00000000 → decode (.request req) = .ok (.csum (req.extractLsb' 8 6))) ∧
    (req &&& 0x0000C0FF = 0x00000001 →
      decode (.request req) = .ok (.enc (req.extractLsb' 16 8) (req.extractLsb' 24 8) (req.extractLsb' 8 6))) ∧
    (req = 0x00000002 → decode (.request req) = .ok .dec) ∧
    (req &&& 0xFFFFC0FF = 0x00000003 → decode (.request req) = .ok (.kdf (req.extractLsb' 8 6))) ∧
    (req &&& 0xFFFFC0FF ≠ 0x00000000 → req &&& 0x0000C0FF ≠ 0x00000001 → req ≠ 0x00000002 →
      req &&& 0xFFFFC0FF ≠ 0x00000003 → decode (.request req) = .error (.raises .illegalRequest))

/-- Decoding the encoding of a well-formed instruction gives it back, for every row of the table (the
units that carry the frame rows are the model's choice, log entry 2). -/
def Obligations.DecodeInvertsEncode : Prop :=
  ∀ i : Instr, i.wellFormed = true → decode (encode i) = .ok i

/-- A unit that decodes is the encoding of what it decodes to, which is well formed: no bit is ignored
(the units that carry the frame rows are the model's choice, log entry 2). -/
def Obligations.EncodeInvertsDecode : Prop :=
  ∀ (u : Presented) (i : Instr), decode u = .ok i → i.wellFormed = true ∧ encode i = u

/-- R76: the request words of the assembler's syntax, and the expansion of `WAKE mid`. -/
def Obligations.AssemblerGivesTheRequestWords : Prop :=
  (∀ n : BitVec 6, assembleLine (.csum n) = [.present (.request (n.setWidth 32 <<< 8))]) ∧
    (∀ (cmd mid : Byte) (n : BitVec 6), assembleLine (.enc cmd mid n) =
      [.present (.request (mid.setWidth 32 <<< 24 ||| cmd.setWidth 32 <<< 16 ||| n.setWidth 32 <<< 8 ||| 1))]) ∧
    assembleLine .dec = [.present (.request 0x00000002)] ∧
    (∀ n : BitVec 6, assembleLine (.kdf n) = [.present (.request (n.setWidth 32 <<< 8 ||| 3))]) ∧
    ∀ mid : Byte, assembleLine (.wake mid) =
      [.setIn [0x28, 0x63, 0x29, 0x20, 0x4C, 0x45, 0x47, 0x4F, 0x20, 0x32, 0x30, 0x31, 0x34],
        .present (.request (mid.setWidth 32 <<< 24 ||| 0x00B00D01))]

/-! ### Errors and the whole machine -/

/-- Every instruction completes, in every state, replacing the result record and nothing else: `TMPL`, the
host's `IN` and its lines stay. For `CSUM`, `ENC`, `DEC` and `KDF` this is 10_state.md sections 3 and 4 and
60_exceptions.md section 1; that `FRAME.OUT`, `FRAME.RESP` and `FRAME.EVT` execute at all is the model's
choice (log entry 2), and so are the host's fields that stay (log entry 3). -/
def Obligations.EveryInstructionReplacesTheRecordOnly : Prop :=
  ∀ (i : Instr) (s : State), ∃ r : ResultRecord, exec i s = leaves s r ∧ r.valid = 1

/-- STATUS is the error's code, VALID 1, every other field 0, whether a unit's decode raises the error or an
instruction does. For requests this is 60_exceptions.md section 3, and the six codes are the table of its
section 1; that a presented wire frame, and `FRAME.OUT`, `FRAME.RESP` and `FRAME.EVT` as instructions, raise
these errors is the model's choice (log entry 2), and so are the host's lines (log entry 3). -/
def Obligations.ErrorsLeaveOnlyTheirStatus : Prop :=
  (∀ (s : State) (u : Presented) (e : Error) (rest : List HostLine), s.lines = .present u :: rest →
    decode u = .error (.raises e) → step s = fails { s with lines := rest } (errorStatus e)) ∧
    (∀ (i : Instr) (s t : State), exec i s = .next t → t.result.status ≠ 0 →
      exec i s = fails s t.result.status) ∧
    errorStatus .payloadTooLarge = 0x01 ∧ errorStatus .frameTooLarge = 0x02 ∧
    errorStatus .checksumMismatch = 0x03 ∧ errorStatus .unknownFrameType = 0x04 ∧
    errorStatus .lengthOutOfRange = 0x05 ∧ errorStatus .illegalRequest = 0x06

/-- 30_encoding.md R65 and 60_exceptions.md R143: a word with a reserved OP, a non-zero reserved field or a
non-zero unused field raises IllegalRequest, whatever `IN` holds. -/
def Obligations.IllegalRequestComesFirst : Prop :=
  ∀ (s : State) (req : Word) (rest : List HostLine), s.lines = .present (.request req) :: rest →
    (4 ≤ (req.extractLsb' 0 4).toNat ∨ req.extractLsb' 4 4 ≠ 0 ∨ req.extractLsb' 14 2 ≠ 0 ∨
      ((req.extractLsb' 0 4 = 0x0#4 ∨ req.extractLsb' 0 4 = 0x3#4) ∧ req.extractLsb' 16 16 ≠ 0) ∨
      (req.extractLsb' 0 4 = 0x2#4 ∧ req.extractLsb' 8 24 ≠ 0)) →
    step s = fails { s with lines := rest } 0x06

/-- 60_exceptions.md R142: the STATUS values a request word of each operation can leave. -/
def Obligations.OperationsRaiseOnlyTheirErrors : Prop :=
  ∀ (s : State) (req : Word) (rest : List HostLine), s.lines = .present (.request req) :: rest →
    ∃ t, step s = .next t ∧
      (req.extractLsb' 0 4 = 0x0#4 → t.result.status ∈ [0x00#8, 0x05#8, 0x06#8]) ∧
      (req.extractLsb' 0 4 = 0x1#4 → t.result.status ∈ [0x00#8, 0x01#8, 0x06#8]) ∧
      (req.extractLsb' 0 4 = 0x2#4 → t.result.status ∈ [0x00#8, 0x02#8, 0x03#8, 0x04#8, 0x06#8]) ∧
      (req.extractLsb' 0 4 = 0x3#4 → t.result.status ∈ [0x00#8, 0x05#8, 0x06#8]) ∧
      (4 ≤ (req.extractLsb' 0 4).toNat → t.result.status = 0x06)

/-- 10_state.md R36, 20_memory.md R48: the record after a request is a function of the request word, of the 32 bytes
of `IN` and of the 32 bytes of `TMPL`, whatever came before. -/
def Obligations.RecordDependsOnTheRequestOnly : Prop :=
  ∀ (s s' : State) (req : Word) (rest rest' : List HostLine), s.lines = .present (.request req) :: rest →
    s'.lines = .present (.request req) :: rest' → sameOn s.inBuf s'.inBuf 0 32 → sameOn s.tmpl s'.tmpl 0 32 →
    ∃ t t', step s = .next t ∧ step s' = .next t' ∧ t.result = t'.result

/-- The invariant holds after reset (R37, R163). -/
def Obligations.ResetIsCoherent : Prop := State.reset.Inv

/-- Every step keeps the invariant: the record is one that reset or a single request leaves (R24 to
R32, R144), no space has a byte past index 31 (R48), and every space stays in canonical form. The steps
take the model's host lines (log entry 3), presented wire frames among them (log entry 2). -/
def Obligations.EveryStepKeepsTheRecordCoherent : Prop :=
  ∀ s t : State, s.Inv → step s = .next t → t.Inv

/-! ### CSUM -/

/-- R81: the checksum does not depend on when the sum is reduced nor on the order of the elements, and a
wider element counts as its residue. -/
def Obligations.ChecksumReducesAtAnyTime : Prop :=
  (∀ bs : List Byte, checksum bs = bs.foldl (· + ·) 0) ∧
    (∀ bs bs' : List Byte, bs.Perm bs' → checksum bs = checksum bs') ∧
    (∀ vs : List Nat, checksum (vs.map (BitVec.ofNat 8)) = BitVec.ofNat 8 vs.sum) ∧
    ∀ vs : List Nat, checksum (vs.map (BitVec.ofNat 8)) = checksum (vs.map fun v => BitVec.ofNat 8 (v % 256))

/-- 40_checksum.md section 2 (R82), 10_state.md R35: `CSUM n` with `n <= 32` leaves the sum of `IN[0 .. n)`. -/
def Obligations.CsumLeavesTheSumOfTheFirstBytes : Prop :=
  ∀ (n : BitVec 6) (s : State), n.toNat ≤ 32 →
    exec (.csum n) s = leaves s { ResultRecord.zero with
      status := 0x00, valid := 1, csum := byteSum s.inBuf n.toNat }

/-- R83: `CSUM` with `n > 32` raises LengthOutOfRange. -/
def Obligations.CsumRefusesMoreThan32Bytes : Prop :=
  ∀ (n : BitVec 6) (s : State), 32 < n.toNat → exec (.csum n) s = fails s 0x05

/-! ### ENC -/

/-- R66, R92, R93, R94: the outgoing frame, offset by offset, and its checksum also in CSUM. -/
def Obligations.EncWritesTheOutgoingFrame : Prop :=
  ∀ (cmd mid : Byte) (n : BitVec 6) (s : State), n.toNat ≤ 27 →
    ∃ (out : Memory) (c : Byte),
      exec (.enc cmd mid n) s = leaves s { ResultRecord.zero with status := 0x00, valid := 1, csum := c, out := out } ∧
      readByte out 0 = 0x55 ∧ (readByte out 1).toNat = 2 + n.toNat ∧ readByte out 2 = cmd ∧ readByte out 3 = mid ∧
      (∀ i, i < n.toNat → readByte out (4 + i) = inAt s i) ∧
      readByte out (4 + n.toNat) = c ∧ c = byteSum out (4 + n.toNat) ∧
      ∀ a, 5 + n.toNat ≤ a → readByte out a = 0x00

/-- R91: `ENC` with `n > 27` raises PayloadTooLarge. -/
def Obligations.EncRefusesMoreThan27Bytes : Prop :=
  ∀ (cmd mid : Byte) (n : BitVec 6) (s : State), 27 < n.toNat → exec (.enc cmd mid n) s = fails s 0x01

/-- R96: `ENC` reads `IN[0 .. n)` only. -/
def Obligations.EncIgnoresBytesPastThePayload : Prop :=
  ∀ (cmd mid : Byte) (n : BitVec 6) (s : State) (inp : Memory), sameOn s.inBuf inp 0 n.toNat →
    ∃ r, exec (.enc cmd mid n) s = leaves s r ∧
      exec (.enc cmd mid n) { s with inBuf := inp } = leaves { s with inBuf := inp } r

/-! ### DEC -/

/-- R102: a length byte of 30 or more is FrameTooLarge, whatever the other bytes hold; 0 to 29 are accepted. -/
def Obligations.DecRefusesLongFrames : Prop :=
  ∀ s : State, (30 ≤ (inAt s 1).toNat → exec .dec s = fails s 0x02) ∧
    ((inAt s 1).toNat ≤ 29 → ∃ t, exec .dec s = .next t ∧ t.result.status ≠ 0x02)

/-- R103: a checksum byte that is not the sum of the offsets before it is ChecksumMismatch, whatever the
type byte; on success CSUM is the frame's checksum byte. -/
def Obligations.DecChecksTheSum : Prop :=
  ∀ s : State, (inAt s 1).toNat ≤ 29 →
    (inAt s (2 + (inAt s 1).toNat) ≠ byteSum s.inBuf (2 + (inAt s 1).toNat) → exec .dec s = fails s 0x03) ∧
    (∀ t, exec .dec s = .next t → t.result.status = 0x00 →
      t.result.csum = byteSum s.inBuf (2 + (inAt s 1).toNat) ∧
        t.result.csum = inAt s (2 + (inAt s 1).toNat))

/-- R104: after a correct checksum the type byte decides: 0x56 an event, 0x55 a response, any other value
UnknownFrameType. -/
def Obligations.DecBranchesOnTheTypeByte : Prop :=
  ∀ s : State, (inAt s 1).toNat ≤ 29 →
    inAt s (2 + (inAt s 1).toNat) = byteSum s.inBuf (2 + (inAt s 1).toNat) →
    (inAt s 0 = 0x56 → ∃ t, exec .dec s = .next t ∧ t.result.status = 0x00 ∧ t.result.kind = 2) ∧
    (inAt s 0 = 0x55 → ∃ t, exec .dec s = .next t ∧ t.result.status = 0x00 ∧ t.result.kind = 1) ∧
    (inAt s 0 ≠ 0x56 → inAt s 0 ≠ 0x55 → exec .dec s = fails s 0x04)

/-- R105: an event frame's code, message id, payload length and payload. -/
def Obligations.DecReadsEventFrames : Prop :=
  ∀ s : State, (inAt s 1).toNat ≤ 29 →
    inAt s (2 + (inAt s 1).toNat) = byteSum s.inBuf (2 + (inAt s 1).toNat) → inAt s 0 = 0x56 →
    ∃ out : Memory,
      exec .dec s = leaves s {
        status := 0x00, valid := 1, kind := 2, code := inAt s 1, mid := 0
        plen := BitVec.ofNat 6 (inAt s 1).toNat, csum := inAt s (2 + (inAt s 1).toNat), pwd := 0, out := out } ∧
      (∀ i, i < (inAt s 1).toNat → readByte out i = inAt s (2 + i)) ∧
      ∀ a, (inAt s 1).toNat ≤ a → readByte out a = 0x00

/-- R106: a response frame with `L >= 2`. -/
def Obligations.DecReadsResponseFrames : Prop :=
  ∀ s : State, (inAt s 1).toNat ≤ 29 → 2 ≤ (inAt s 1).toNat →
    inAt s (2 + (inAt s 1).toNat) = byteSum s.inBuf (2 + (inAt s 1).toNat) → inAt s 0 = 0x55 →
    ∃ out : Memory,
      exec .dec s = leaves s {
        status := 0x00, valid := 1, kind := 1, code := inAt s 3, mid := inAt s 2
        plen := BitVec.ofNat 6 ((inAt s 1).toNat - 2), csum := inAt s (2 + (inAt s 1).toNat), pwd := 0, out := out } ∧
      (∀ i, i < (inAt s 1).toNat - 2 → readByte out i = inAt s (4 + i)) ∧
      ∀ a, (inAt s 1).toNat - 2 ≤ a → readByte out a = 0x00

/-- R107: a response frame with `L` 0 or 1 has no payload; with `L = 0` its message id is the checksum byte
0x55, with `L = 1` its code is the checksum byte. -/
def Obligations.DecReadsShortResponseFrames : Prop :=
  ∀ s : State, (inAt s 1).toNat < 2 →
    inAt s (2 + (inAt s 1).toNat) = byteSum s.inBuf (2 + (inAt s 1).toNat) → inAt s 0 = 0x55 →
    exec .dec s = leaves s {
      status := 0x00, valid := 1, kind := 1, code := inAt s 3, mid := inAt s 2
      plen := 0, csum := inAt s (2 + (inAt s 1).toNat), pwd := 0, out := [] } ∧
    ((inAt s 1).toNat = 0 → inAt s 2 = 0x55) ∧
    ((inAt s 1).toNat = 1 → inAt s 3 = byteSum s.inBuf 3)

/-- 42_frame_decode.md R108: `DEC` reads nothing past the checksum byte, but for offset 3 of a response frame of
length byte 0, which R107 reads as CODE (log entry 6). -/
def Obligations.DecIgnoresPadding : Prop :=
  ∀ (s : State) (inp : Memory), sameOn s.inBuf inp 0 (3 + (inAt s 1).toNat) →
    (inAt s 0 = 0x55 → inAt s 1 = 0x00 → readByte inp 3 = inAt s 3) →
    ∃ r, exec .dec s = leaves s r ∧ exec .dec { s with inBuf := inp } = leaves { s with inBuf := inp } r

/-- R110: `DEC` writes only the fresh record, and its result depends on `IN` alone. -/
def Obligations.DecDependsOnTheBufferAlone : Prop :=
  ∀ s s' : State, sameOn s.inBuf s'.inBuf 0 32 →
    ∃ r, exec .dec s = leaves s r ∧ exec .dec s' = leaves s' r

/-- R111: `DEC` on the frame `ENC` wrote succeeds, with command and message id swapped. -/
def Obligations.DecodingAnEncodedFrameSwapsTheHeader : Prop :=
  ∀ (cmd mid : Byte) (n : BitVec 6) (s : State), n.toNat ≤ 27 →
    ∃ t u : State, exec (.enc cmd mid n) s = .next t ∧ exec .dec { t with inBuf := t.result.out } = .next u ∧
      u.result.status = 0x00 ∧ u.result.kind = 1 ∧ u.result.mid = cmd ∧ u.result.code = mid ∧ u.result.plen = n ∧
      (∀ i, i < n.toNat → readByte u.result.out i = inAt s i) ∧ u.result.csum = t.result.csum

/-! ### KDF -/

/-- R121 to R124: the template with the UID over its first bytes, the accumulator from 0 through eight rounds,
the password as a number in PWD and most significant byte first in `OUT`. -/
def Obligations.KdfMixesEightRounds : Prop :=
  ∀ (n : BitVec 6) (s : State), n.toNat ≤ 32 →
    let T : Nat → Byte := fun j => if j < n.toNat then inAt s j else readByte s.tmpl j
    ∃ (v : Nat → Word) (out : Memory),
      v 0 = 0 ∧
      (∀ i, i < 8 → v (i + 1) =
        (T (4 * i + 3) ++ T (4 * i + 2) ++ T (4 * i + 1) ++ T (4 * i) : BitVec 32) +
          (v i).rotateRight 25 + (v i).rotateRight 10 - v i) ∧
      exec (.kdf n) s = leaves s { ResultRecord.zero with status := 0x00, valid := 1, pwd := v 8, out := out } ∧
      readByte out 0 = (v 8).extractLsb' 24 8 ∧ readByte out 1 = (v 8).extractLsb' 16 8 ∧
      readByte out 2 = (v 8).extractLsb' 8 8 ∧ readByte out 3 = (v 8).extractLsb' 0 8 ∧
      ∀ a, 4 ≤ a → readByte out a = 0x00

/-- R125: `KDF` with `n > 32` raises LengthOutOfRange. -/
def Obligations.KdfRefusesMoreThan32Bytes : Prop :=
  ∀ (n : BitVec 6) (s : State), 32 < n.toNat → exec (.kdf n) s = fails s 0x05

/-- 43_key_derivation.md R120 corner cases, R127: the password depends on `n`, on `IN[0 .. n)` and on the template from
offset `n` on, so that with `n = 32` it does not depend on the template. -/
def Obligations.KdfDependsOnUidAndTemplateTail : Prop :=
  ∀ (n : BitVec 6) (s s' : State), sameOn s.inBuf s'.inBuf 0 n.toNat → sameOn s.tmpl s'.tmpl n.toNat 32 →
    ∃ r, exec (.kdf n) s = leaves s r ∧ exec (.kdf n) s' = leaves s' r

/-! ### The table's wire frames (their carrier is the model's own, log entry 2) -/

/-- `FRAME.OUT` runs as `ENC` of its fields on its payload, and `OUT` then holds the frame's own encoding
(30_encoding.md R66, 41_frame_encode.md R90; log entry 2). -/
def Obligations.OutgoingFrameRowIsWhatEncWrites : Prop :=
  ∀ (cmd mid : Byte) (p : List Byte) (s : State), p.length ≤ 27 →
    ∃ (r : ResultRecord) (f : WireFrame), exec (.frameOut cmd mid p) s = leaves s r ∧
      exec (.enc cmd mid (BitVec.ofNat 6 p.length)) { s with inBuf := ofBytes p } =
        leaves { s with inBuf := ofBytes p } r ∧
      encode (.frameOut cmd mid p) = .outgoing f ∧
      ∀ a, a < 32 → readByte r.out a = f.toList.getD a 0

/-- An outgoing frame term whose payload is longer than 27 bytes raises PayloadTooLarge as `ENC` does
(41_frame_encode.md R91; log entry 2). -/
def Obligations.OutgoingFrameRowRefusesLongPayloads : Prop :=
  ∀ (cmd mid : Byte) (p : List Byte) (s : State), 27 < p.length → exec (.frameOut cmd mid p) s = fails s 0x01

/-- `FRAME.RESP`: a well-formed response frame completes with its fields (30_encoding.md R67; log entry 2). -/
def Obligations.ResponseFrameRowLeavesItsFields : Prop :=
  ∀ (f : WireFrame) (s : State), (Instr.frameResp f).wellFormed = true →
    let b : Nat → Byte := fun i => f.toList.getD i 0
    ∃ out : Memory,
      exec (.frameResp f) s = leaves s {
        status := 0x00, valid := 1, kind := 1, code := b 3, mid := b 2
        plen := BitVec.ofNat 6 ((b 1).toNat - 2), csum := b (2 + (b 1).toNat), pwd := 0, out := out } ∧
      (∀ i, i < (b 1).toNat - 2 → readByte out i = b (4 + i)) ∧
      ∀ a, (b 1).toNat - 2 ≤ a → readByte out a = 0x00

/-- `FRAME.EVT`: a well-formed event frame completes with its fields (30_encoding.md R68; log entry 2). -/
def Obligations.EventFrameRowLeavesItsFields : Prop :=
  ∀ (f : WireFrame) (s : State), (Instr.frameEvt f).wellFormed = true →
    let b : Nat → Byte := fun i => f.toList.getD i 0
    ∃ out : Memory,
      exec (.frameEvt f) s = leaves s {
        status := 0x00, valid := 1, kind := 2, code := b 1, mid := 0
        plen := BitVec.ofNat 6 (b 1).toNat, csum := b (2 + (b 1).toNat), pwd := 0, out := out } ∧
      (∀ i, i < (b 1).toNat → readByte out i = b (2 + i)) ∧
      ∀ a, (b 1).toNat ≤ a → readByte out a = 0x00

/-- A received buffer, well formed or not, runs as `DEC` on it: as an instruction of either received
row, and as a presented unit (20_memory.md R41, 42_frame_decode.md R100; log entry 2). -/
def Obligations.ReceivedBuffersRunAsDec : Prop :=
  ∀ (f : WireFrame) (s : State), ∃ r : ResultRecord,
    exec .dec { s with inBuf := ofWire f } = leaves { s with inBuf := ofWire f } r ∧
    exec (.frameResp f) s = leaves s r ∧ exec (.frameEvt f) s = leaves s r ∧
    step { s with lines := .present (.received f) :: s.lines } = leaves s r
end

