-- ==== Sys2Proof/Laws/Memory.lean ====
section
/-! SUPPORT. The laws of the 32-byte spaces: read after write, canonical form kept, and equal contents are equal
data. -/

namespace Sys2Proof.Laws

open Sys2Proof.Machine

@[simp] theorem readByte_nil (a : Nat) : readByte [] a = unlisted := rfl

theorem readByte_cons (c : Host.Cell) (m : Memory) (a : Nat) :
    readByte (c :: m) a = if c.1 = a then c.2 else readByte m a := rfl

theorem readByte_eraseByte (m : Memory) (a b : Nat) :
    readByte (eraseByte m a) b = if b = a then unlisted else readByte m b := by
  induction m with
  | nil => simp [eraseByte]
  | cons c m ih =>
    have hcons : eraseByte (c :: m) a = if c.1 = a then eraseByte m a else c :: eraseByte m a := by
      by_cases h : c.1 = a <;> simp [eraseByte, h]
    rw [hcons]
    split
    · next h =>
      rw [ih, readByte_cons]
      split
      · rfl
      · rw [if_neg (by omega)]
    · next h =>
      rw [readByte_cons, readByte_cons, ih]
      split
      · next hc => rw [if_neg (by omega)]
      · rfl

theorem readByte_insertCell (c : Host.Cell) (m : Memory) (b : Nat) (h : readByte m c.1 = unlisted)
    (hn : ∀ d ∈ m, d.1 ≠ c.1) :
    readByte (insertCell c m) b = if b = c.1 then c.2 else readByte m b := by
  induction m with
  | nil => simp [insertCell, readByte_cons, eq_comm]
  | cons d m ih =>
    have hd : d.1 ≠ c.1 := hn d (by simp)
    have ih := ih (by simpa [readByte_cons, hd] using h) fun e he => hn e (by simp [he])
    rw [insertCell]
    split
    · simp [readByte_cons, eq_comm]
    · rw [readByte_cons, ih, readByte_cons]
      split
      · next hb => rw [if_neg (by omega)]
      · rfl

theorem mem_eraseByte_ne (m : Memory) (a : Nat) : ∀ d ∈ eraseByte m a, d.1 ≠ a := by
  simp [eraseByte]

/-- A read after a write: the written value at its index, every other index as before. -/
theorem readByte_writeByte (m : Memory) (a b : Nat) (v : Byte) :
    readByte (writeByte m a v) b = if b = a then v else readByte m b := by
  rw [writeByte]
  split
  · next hv => rw [readByte_eraseByte, hv]
  · rw [readByte_insertCell (a, v) _ _ (by simp [readByte_eraseByte]) (mem_eraseByte_ne m a),
      readByte_eraseByte]
    split <;> simp_all

@[simp] theorem readByte_writeByte_same (m : Memory) (a : Nat) (v : Byte) :
    readByte (writeByte m a v) a = v := by
  simp [readByte_writeByte]

theorem readByte_writeByte_other (m : Memory) (a b : Nat) (v : Byte) (h : b ≠ a) :
    readByte (writeByte m a v) b = readByte m b := by
  simp [readByte_writeByte, h]

/-- A read after a block write: the written bytes in their range, every other index as before. -/
theorem readByte_writeBytes (bs : List Byte) (m : Memory) (a b : Nat) :
    readByte (writeBytes m a bs) b =
      if a ≤ b ∧ b < a + bs.length then bs.getD (b - a) 0 else readByte m b := by
  induction bs generalizing m a with
  | nil => rw [if_neg (by simp only [List.length_nil]; omega)]; rfl
  | cons x bs ih =>
    rw [writeBytes, ih, readByte_writeByte]
    by_cases h0 : b = a
    · subst h0; simp
    · by_cases h1 : a + 1 ≤ b ∧ b < a + 1 + bs.length
      · obtain ⟨k, rfl⟩ : ∃ k, b = a + 1 + k := ⟨b - (a + 1), by omega⟩
        have h2 : a ≤ a + 1 + k ∧ a + 1 + k < a + (x :: bs).length := by simp; omega
        have hk : a + 1 + k - a = k + 1 := by omega
        rw [if_pos h1, if_pos h2, hk]
        simp
      · have h2 : ¬(a ≤ b ∧ b < a + (x :: bs).length) := by simp; omega
        rw [if_neg h1, if_neg h0, if_neg h2]

@[simp] theorem readByte_ofBytes (bs : List Byte) (a : Nat) : readByte (ofBytes bs) a = bs.getD a 0 := by
  rw [ofBytes, readByte_writeBytes]
  by_cases h : a < bs.length
  · simp [h]
  · simp [h, unlisted]

@[simp] theorem readBytes_length (m : Memory) (a n : Nat) : (readBytes m a n).length = n := by
  simp [readBytes]

@[simp] theorem slice_length (m : Memory) (a b : Nat) : (slice m a b).length = b - a := by
  simp [slice]

theorem readBytes_getD (m : Memory) (a n i : Nat) :
    (readBytes m a n).getD i 0 = if i < n then readByte m (a + i) else 0 := by
  by_cases h : i < n <;> simp [readBytes, h]

theorem slice_getD (m : Memory) (a b i : Nat) :
    (slice m a b).getD i 0 = if i < b - a then readByte m (a + i) else 0 :=
  readBytes_getD m a (b - a) i

/-- A slice depends on the bytes in its range only. -/
theorem slice_congr (m m' : Memory) (a b : Nat) (h : ∀ i, a ≤ i → i < b → readByte m i = readByte m' i) :
    slice m a b = slice m' a b := by
  refine List.map_congr_left fun j hj => ?_
  have := List.mem_range.mp hj
  exact h _ (by omega) (by omega)

theorem cellsFrom_cons (lo : Nat) (c : Host.Cell) (m : Memory) :
    cellsFrom lo (c :: m) = true ↔
      lo ≤ c.1 ∧ c.1 < frameSize ∧ c.2 ≠ unlisted ∧ cellsFrom (c.1 + 1) m = true := by
  simp [cellsFrom, and_assoc]

theorem cellsFrom_mono (m : Memory) (lo lo' : Nat) (hl : lo' ≤ lo) (h : cellsFrom lo m = true) :
    cellsFrom lo' m = true := by
  cases m with
  | nil => rfl
  | cons c m =>
    rw [cellsFrom_cons] at *
    exact ⟨by omega, h.2⟩

theorem eraseByte_cells (m : Memory) (lo a : Nat) (h : cellsFrom lo m = true) :
    cellsFrom lo (eraseByte m a) = true := by
  induction m generalizing lo with
  | nil => rfl
  | cons c m ih =>
    rw [cellsFrom_cons] at h
    have hm := ih _ h.2.2.2
    by_cases hc : c.1 = a
    · have : eraseByte (c :: m) a = eraseByte m a := by simp [eraseByte, hc]
      rw [this]
      exact cellsFrom_mono _ _ _ (by omega) hm
    · have : eraseByte (c :: m) a = c :: eraseByte m a := by simp [eraseByte, hc]
      rw [this, cellsFrom_cons]
      exact ⟨h.1, h.2.1, h.2.2.1, hm⟩

theorem insertCell_cells (m : Memory) (lo : Nat) (c : Host.Cell) (hlo : lo ≤ c.1) (hc : c.1 < frameSize)
    (hv : c.2 ≠ unlisted) (hn : ∀ d ∈ m, d.1 ≠ c.1) (h : cellsFrom lo m = true) :
    cellsFrom lo (insertCell c m) = true := by
  induction m generalizing lo with
  | nil => exact (cellsFrom_cons _ _ _).mpr ⟨hlo, hc, hv, rfl⟩
  | cons d m ih =>
    have hd := hn d (by simp)
    have h' := (cellsFrom_cons _ _ _).mp h
    rw [insertCell]
    split
    · next hlt =>
      exact (cellsFrom_cons _ _ _).mpr
        ⟨hlo, hc, hv, (cellsFrom_cons _ _ _).mpr ⟨by omega, h'.2⟩⟩
    · exact (cellsFrom_cons _ _ _).mpr
        ⟨h'.1, h'.2.1, h'.2.2.1, ih _ (by omega) (fun e he => hn e (by simp [he])) h'.2.2.2⟩

@[simp] theorem nil_wf : Memory.wf [] = true := rfl

/-- A write inside the space keeps the canonical form. -/
theorem writeByte_wf (m : Memory) (a : Nat) (v : Byte) (ha : a < 32) (h : m.wf = true) :
    (writeByte m a v).wf = true := by
  rw [writeByte]
  split
  · exact eraseByte_cells _ _ _ h
  · next hv =>
    exact insertCell_cells _ _ _ (by simp) ha hv (mem_eraseByte_ne m a) (eraseByte_cells _ _ _ h)

/-- A block write inside the space keeps the canonical form. -/
theorem writeBytes_wf (bs : List Byte) (m : Memory) (a : Nat) (ha : a + bs.length ≤ 32) (h : m.wf = true) :
    (writeBytes m a bs).wf = true := by
  induction bs generalizing m a with
  | nil => exact h
  | cons b bs ih =>
    simp only [List.length_cons] at ha
    exact ih _ _ (by omega) (writeByte_wf m a b (by omega) h)

theorem ofBytes_wf (bs : List Byte) (h : bs.length ≤ 32) : (ofBytes bs).wf = true :=
  writeBytes_wf bs [] 0 (by omega) rfl

theorem ofWire_wf (f : WireFrame) : (ofWire f).wf = true := ofBytes_wf _ (by simp)

/-- A canonical space lists nothing below its bound, and nothing from 32 on. -/
theorem readByte_outside (m : Memory) (lo a : Nat) (h : cellsFrom lo m = true) (ha : a < lo ∨ 32 ≤ a) :
    readByte m a = unlisted := by
  induction m generalizing lo with
  | nil => rfl
  | cons c m ih =>
    rw [cellsFrom_cons] at h
    have hlt : c.1 < 32 := h.2.1
    rw [readByte_cons, if_neg (by omega)]
    exact ih _ h.2.2.2 (by omega)

/-- Two canonical spaces with equal contents are equal data. -/
theorem cells_ext (m m' : Memory) (lo : Nat) (h : cellsFrom lo m = true) (h' : cellsFrom lo m' = true)
    (hr : ∀ a, readByte m a = readByte m' a) : m = m' := by
  induction m generalizing m' lo with
  | nil =>
    cases m' with
    | nil => rfl
    | cons c m' =>
      have hc := (cellsFrom_cons _ _ _).mp h'
      exact absurd (by simpa [readByte_cons] using (hr c.1).symm) hc.2.2.1
  | cons c m ih =>
    have hc := (cellsFrom_cons _ _ _).mp h
    have hcr : readByte (c :: m) c.1 = c.2 := by simp [readByte_cons]
    cases m' with
    | nil => exact absurd (by rw [← hcr, hr]; rfl) hc.2.2.1
    | cons d m' =>
      have hd := (cellsFrom_cons _ _ _).mp h'
      have hdr : readByte (d :: m') d.1 = d.2 := by simp [readByte_cons]
      have hfst : c.1 = d.1 := by
        rcases Nat.lt_trichotomy c.1 d.1 with hlt | heq | hgt
        · refine absurd ?_ hc.2.2.1
          rw [← hcr, hr, readByte_cons, if_neg (by omega)]
          exact readByte_outside m' _ _ hd.2.2.2 (by omega)
        · exact heq
        · refine absurd ?_ hd.2.2.1
          rw [← hdr, ← hr, readByte_cons, if_neg (by omega)]
          exact readByte_outside m _ _ hc.2.2.2 (by omega)
      have hsnd : c.2 = d.2 := by rw [← hcr, hr, hfst, hdr]
      have hcd : c = d := Prod.ext hfst hsnd
      subst hcd
      have htail : ∀ a, readByte m a = readByte m' a := by
        intro a
        by_cases ha : c.1 = a
        · rw [readByte_outside m _ a hc.2.2.2 (by omega), readByte_outside m' _ a hd.2.2.2 (by omega)]
        · simpa [readByte_cons, ha] using hr a
      rw [ih m' _ hc.2.2.2 hd.2.2.2 htail]

theorem memory_ext (m m' : Memory) (h : m.wf = true) (h' : m'.wf = true)
    (hr : ∀ a, a < 32 → readByte m a = readByte m' a) : m = m' := by
  refine cells_ext m m' 0 h h' fun a => ?_
  by_cases ha : a < 32
  · exact hr a ha
  · rw [readByte_outside m 0 a h (by omega), readByte_outside m' 0 a h' (by omega)]

@[simp] theorem wireOf_toList (bs : List Byte) :
    (wireOf bs).toList = (bs ++ List.replicate 32 0x00).take 32 := rfl

end Sys2Proof.Laws
end

