-- ==== Sys2Proof/Laws/State.lean ====
section
/-! SUPPORT. What each update of the state does to each field, so that no later proof unfolds a record
update. -/

namespace Sys2Proof.Laws

open Sys2Proof.Machine

@[simp] theorem replaceResult_result (r : ResultRecord) (s : State) :
    (replaceResult r s).result = { r with valid := validSet } := rfl
@[simp] theorem replaceResult_tmpl (r : ResultRecord) (s : State) : (replaceResult r s).tmpl = s.tmpl := rfl
@[simp] theorem replaceResult_inBuf (r : ResultRecord) (s : State) : (replaceResult r s).inBuf = s.inBuf := rfl
@[simp] theorem replaceResult_lines (r : ResultRecord) (s : State) : (replaceResult r s).lines = s.lines := rfl

@[simp] theorem raiseError_result (e : Error) (s : State) :
    (raiseError e s).result = { errorRecord e with valid := validSet } := rfl
@[simp] theorem raiseError_tmpl (e : Error) (s : State) : (raiseError e s).tmpl = s.tmpl := rfl
@[simp] theorem raiseError_inBuf (e : Error) (s : State) : (raiseError e s).inBuf = s.inBuf := rfl
@[simp] theorem raiseError_lines (e : Error) (s : State) : (raiseError e s).lines = s.lines := rfl

@[simp] theorem complete_ok (r : ResultRecord) (s : State) : complete (.ok r) s = replaceResult r s := rfl
@[simp] theorem complete_error (e : Error) (s : State) : complete (.error e) s = raiseError e s := rfl

@[simp] theorem complete_tmpl (r : Except Error ResultRecord) (s : State) : (complete r s).tmpl = s.tmpl := by
  cases r <;> rfl
@[simp] theorem complete_inBuf (r : Except Error ResultRecord) (s : State) : (complete r s).inBuf = s.inBuf := by
  cases r <;> rfl
@[simp] theorem complete_lines (r : Except Error ResultRecord) (s : State) : (complete r s).lines = s.lines := by
  cases r <;> rfl
@[simp] theorem complete_valid (r : Except Error ResultRecord) (s : State) :
    (complete r s).result.valid = validSet := by
  cases r <;> rfl

@[simp] theorem resetBlock_result (s : State) : (resetBlock s).result = ResultRecord.zero := rfl
@[simp] theorem resetBlock_tmpl (s : State) : (resetBlock s).tmpl = s.tmpl := rfl
@[simp] theorem resetBlock_inBuf (s : State) : (resetBlock s).inBuf = s.inBuf := rfl
@[simp] theorem resetBlock_lines (s : State) : (resetBlock s).lines = s.lines := rfl

@[simp] theorem presentOut_result (s : State) : (presentOut s).result = s.result := rfl
@[simp] theorem presentOut_tmpl (s : State) : (presentOut s).tmpl = s.tmpl := rfl
@[simp] theorem presentOut_inBuf (s : State) : (presentOut s).inBuf = s.result.out := rfl
@[simp] theorem presentOut_lines (s : State) : (presentOut s).lines = s.lines := rfl

@[simp] theorem withFetchWord_result (s : State) (nbits w : Nat) :
    (s.withFetchWord nbits w).result = s.result := rfl
@[simp] theorem withFetchWord_tmpl (s : State) (nbits w : Nat) : (s.withFetchWord nbits w).tmpl = s.tmpl := rfl
@[simp] theorem withFetchWord_inBuf (s : State) (nbits w : Nat) :
    (s.withFetchWord nbits w).inBuf = s.inBuf := rfl
@[simp] theorem withFetchWord_lines (s : State) (nbits w : Nat) :
    (s.withFetchWord nbits w).lines = .present (presentedOfWord nbits w) :: s.lines := rfl

@[simp] theorem reset_result : State.reset.result = ResultRecord.zero := rfl
@[simp] theorem reset_tmpl : State.reset.tmpl = ofBytes Config.kdfTemplate.toList := rfl
@[simp] theorem reset_inBuf : State.reset.inBuf = [] := rfl
@[simp] theorem reset_lines : State.reset.lines = [] := rfl

@[simp] theorem errorRecord_status (e : Error) : (errorRecord e).status = errorStatus e := rfl
@[simp] theorem errorRecord_valid (e : Error) : (errorRecord e).valid = 0 := rfl
@[simp] theorem errorRecord_kind (e : Error) : (errorRecord e).kind = 0 := rfl
@[simp] theorem errorRecord_code (e : Error) : (errorRecord e).code = 0 := rfl
@[simp] theorem errorRecord_mid (e : Error) : (errorRecord e).mid = 0 := rfl
@[simp] theorem errorRecord_plen (e : Error) : (errorRecord e).plen = 0 := rfl
@[simp] theorem errorRecord_csum (e : Error) : (errorRecord e).csum = 0 := rfl
@[simp] theorem errorRecord_pwd (e : Error) : (errorRecord e).pwd = 0 := rfl
@[simp] theorem errorRecord_out (e : Error) : (errorRecord e).out = [] := rfl

end Sys2Proof.Laws
end

