-- ==== Sys2Proof/Laws/Ops.lean ====
section
/-! SUPPORT. One lemma per shared operation that says everything the operation can do; later proofs cite it. -/

namespace Sys2Proof.Laws

open Sys2Proof.Machine

/-- A length check gives the operation's error above its limit and the result up to it. -/
theorem withinLimit_eq (limit n : Nat) (e : Error) (r : ResultRecord) :
    withinLimit limit n e r = if n ≤ limit then .ok r else .error e := by
  rw [withinLimit]
  split <;> split <;> first | rfl | omega

theorem withinLimit_le {limit n : Nat} (e : Error) (r : ResultRecord) (h : n ≤ limit) :
    withinLimit limit n e r = .ok r := by
  rw [withinLimit_eq, if_pos h]

theorem withinLimit_gt {limit n : Nat} (e : Error) (r : ResultRecord) (h : limit < n) :
    withinLimit limit n e r = .error e := by
  rw [withinLimit_eq, if_neg (by omega)]

/-- `CSUM` by its count: the sum of `IN[0 .. n)` up to 32 bytes, LengthOutOfRange beyond (R82, R83). -/
theorem csumOp_eq (n : Nat) (inp : Memory) :
    csumOp n inp =
      if n ≤ 32 then .ok { ResultRecord.zero with csum := checksum (slice inp 0 n), status := 0x00 }
      else .error .lengthOutOfRange :=
  withinLimit_eq _ _ _ _

/-- `ENC` by its payload length: the frame up to 27 bytes, PayloadTooLarge beyond (R90, R91). -/
theorem encOp_eq (cmd mid : Byte) (n : Nat) (inp : Memory) :
    encOp cmd mid n inp =
      if n ≤ 27 then .ok (encRecord cmd mid (slice inp 0 n)) else .error .payloadTooLarge :=
  withinLimit_eq _ _ _ _

/-- `KDF` by its UID length: the password up to 32 bytes, LengthOutOfRange beyond (R120, R125). -/
theorem kdfOp_eq (n : Nat) (inp tmpl : Memory) :
    kdfOp n inp tmpl =
      if n ≤ 32 then .ok (kdfRecord (kdfMix (kdfOverlay tmpl (slice inp 0 n)))) else .error .lengthOutOfRange :=
  withinLimit_eq _ _ _ _

/-- The frame `ENC` writes, offset by offset: header, payload, checksum, zeros (R66). -/
theorem encRecord_out (cmd mid : Byte) (p : List Byte) (a : Nat) :
    readByte (encRecord cmd mid p).out a =
      if a = 4 + p.length then encChecksum cmd mid p
      else if 4 ≤ a ∧ a < 4 + p.length then p.getD (a - 4) 0
      else [0x55, BitVec.ofNat 8 (2 + p.length), cmd, mid].getD a 0 := by
  have hhead : readByte (encHead cmd mid p) a =
      if 4 ≤ a ∧ a < 4 + p.length then p.getD (a - 4) 0
      else [0x55, BitVec.ofNat 8 (2 + p.length), cmd, mid].getD a 0 := by
    rw [encHead, readByte_writeBytes, show msgPayloadAt = 4 from rfl]
    split
    · rfl
    · exact readByte_ofBytes _ _
  rw [← hhead]
  exact readByte_writeByte _ _ _ _

/-- The working copy of `KDF`: the UID over the template's first bytes (R121). -/
theorem kdfOverlay_read (tmpl : Memory) (uid : List Byte) (j : Nat) :
    readByte (kdfOverlay tmpl uid) j = if j < uid.length then uid.getD j 0 else readByte tmpl j := by
  simp [kdfOverlay, readByte_writeBytes]

/-- Completing a request replaces the record and nothing else: with the operation's result, or with
the record of the error it raised. -/
theorem complete_cases (r : Except Error ResultRecord) (s : State) :
    (∃ r', r = .ok r' ∧ complete r s = { s with result := { r' with valid := validSet } }) ∨
      ∃ e, r = .error e ∧ complete r s = { s with result := { errorRecord e with valid := validSet } } := by
  cases r with
  | ok r' => exact .inl ⟨r', rfl, rfl⟩
  | error e => exact .inr ⟨e, rfl, rfl⟩

/-- An instruction replaces the record, from the operand buffer and the template alone, and changes
nothing else. -/
theorem exec_eq (i : Instr) (s : State) :
    ∃ r, exec i s = .next (complete r s) ∧
      (i = .dec → r = decOp s.inBuf) ∧
      (∀ n, i = .csum n → r = csumOp n.toNat s.inBuf) ∧
      (∀ c d n, i = .enc c d n → r = encOp c d n.toNat s.inBuf) ∧
      (∀ n, i = .kdf n → r = kdfOp n.toNat s.inBuf s.tmpl) ∧
      (∀ c d p, i = .frameOut c d p →
        r = withinLimit encPayloadMax p.length .payloadTooLarge (encRecord c d p)) ∧
      (∀ f, i = .frameResp f ∨ i = .frameEvt f → r = decOp (ofWire f)) := by
  cases i <;> exact ⟨_, rfl, by simp_all⟩

/-- The checks of a received buffer, in the order of R100. -/
theorem classify_cases (m : Memory) :
    (29 < lengthByte m ∧ classify m = .error .frameTooLarge) ∨
      (lengthByte m ≤ 29 ∧ readByte m (checksumAt (lengthByte m)) ≠ frameChecksum m (lengthByte m) ∧
        classify m = .error .checksumMismatch) ∨
      (lengthByte m ≤ 29 ∧ readByte m (checksumAt (lengthByte m)) = frameChecksum m (lengthByte m) ∧
        ((readByte m 0 = 0x56 ∧ classify m = .ok .event) ∨ (readByte m 0 = 0x55 ∧ classify m = .ok .response) ∨
          (readByte m 0 ≠ 0x56 ∧ readByte m 0 ≠ 0x55 ∧ classify m = .error .unknownFrameType))) := by
  rw [classify]
  split
  · next h => exact .inl ⟨h, rfl⟩
  · next h =>
    have hL : lengthByte m ≤ 29 := by simpa [lenMax] using h
    split
    · next hc => exact .inr (.inl ⟨hL, hc, rfl⟩)
    · next hc =>
      refine .inr (.inr ⟨hL, by simpa using hc, ?_⟩)
      rw [frameKind]
      split
      · next h0 => exact .inl ⟨h0, rfl⟩
      · next h0 =>
        split
        · next h1 => exact .inr (.inl ⟨h1, rfl⟩)
        · next h1 => exact .inr (.inr ⟨h0, h1, rfl⟩)

/-- `DEC` on a buffer: the error its checks give, or the record of its layout. -/
theorem decOp_cases (m : Memory) :
    (∃ e, classify m = .error e ∧ decOp m = .error e) ∨
      (classify m = .ok .event ∧ decOp m = .ok (eventRecord m)) ∨
      (classify m = .ok .response ∧ decOp m = .ok (responseRecord m)) := by
  rcases classify_cases m with ⟨_, h⟩ | ⟨_, _, h⟩ | ⟨_, _, ⟨_, h⟩ | ⟨_, h⟩ | ⟨_, _, h⟩⟩ <;> simp [decOp, h]

/-- The `.in` directive sets `IN` to the listed bytes, or faults when they are more than 32. -/
theorem presentIn_cases (bs : List Byte) (s : State) :
    (bs.length ≤ 32 ∧ presentIn bs s = .next { s with inBuf := ofBytes bs }) ∨
      (32 < bs.length ∧ presentIn bs s = .fault (.noSuchIndex 32)) := by
  rw [presentIn]
  split
  · next h => exact .inr ⟨h, rfl⟩
  · next h => exact .inl ⟨by simpa [frameSize] using h, rfl⟩

/-- Presenting a unit runs the decoded instruction, raises the decoder's error, or is refused for bytes
that are no outgoing frame. -/
theorem presentUnit_cases (u : Presented) (s : State) :
    (∃ i, decode u = .ok i ∧ presentUnit u s = exec i s) ∨
      (∃ e, decode u = .error (.raises e) ∧ presentUnit u s = .next (raiseError e s)) ∨
      (decode u = .error .notOutgoing ∧ presentUnit u s = .refused .notOutgoingFrame) := by
  rw [presentUnit]
  split
  · next i h => exact .inl ⟨i, h, rfl⟩
  · next e h => exact .inr (.inl ⟨e, h, rfl⟩)
  · next h => exact .inr (.inr ⟨h, rfl⟩)

/-- One step: nothing with no line left, and else the first line, taken off. -/
theorem step_cases (s : State) :
    (s.lines = [] ∧ step s = .next s) ∨
      ∃ l rest, s.lines = l :: rest ∧ step s = runLine l { s with lines := rest } := by
  rw [step]
  split
  · next h => exact .inl ⟨h, rfl⟩
  · next l rest h => exact .inr ⟨l, rest, h, rfl⟩

/-- The spaces of the machine after reset are in canonical form. -/
theorem reset_spaces_wf :
    State.reset.result.out.wf = true ∧ State.reset.tmpl.wf = true ∧ State.reset.inBuf.wf = true :=
  ⟨rfl, ofBytes_wf _ (by simp), rfl⟩

end Sys2Proof.Laws
end

