-- ==== Sys2Proof/Laws/Codec.lean ====
section
/-! SUPPORT. Small lemmas of the encodings: request-word fields, wire frames byte by byte, and the bit and byte
primitives of spec/00_scope.md R14 and R15 in library terms. -/

namespace Sys2Proof.Laws

open Sys2Proof.Machine

/-- The OP values that are not reserved (R62). -/
theorem reqOp_cases (req : Word) (h : ¬4 ≤ (reqOp req).toNat) :
    reqOp req = 0#4 ∨ reqOp req = 1#4 ∨ reqOp req = 2#4 ∨ reqOp req = 3#4 := by
  generalize reqOp req = o at *
  revert o
  decide

/-- Every field of a request word reads back as it was put in, reserved fields 0 (R61). -/
theorem requestWord_fields (op : BitVec 4) (n : BitVec 6) (cmd mid : Byte) :
    reqOp (requestWord op n cmd mid) = op ∧ reqRsv0 (requestWord op n cmd mid) = 0#4 ∧
      reqN (requestWord op n cmd mid) = n ∧ reqRsv1 (requestWord op n cmd mid) = 0#2 ∧
      reqCmd (requestWord op n cmd mid) = cmd ∧ reqMid (requestWord op n cmd mid) = mid := by
  refine ⟨?_, ?_, ?_, ?_, ?_, ?_⟩ <;> apply BitVec.eq_of_getLsbD_eq <;> intro i hi <;>
    simp only [reqOp, reqRsv0, reqN, reqRsv1, reqCmd, reqMid, requestWord, BitVec.getLsbD_extractLsb',
      BitVec.getLsbD_or, BitVec.getLsbD_shiftLeft, BitVec.getLsbD_setWidth] <;>
    interval_cases i <;> simp [BitVec.getLsbD_of_ge]

/-- A word with clear reserved fields is the request word of its fields (R61). -/
theorem requestWord_of_fields (w : Word) (h0 : reqRsv0 w = 0) (h1 : reqRsv1 w = 0) :
    requestWord (reqOp w) (reqN w) (reqCmd w) (reqMid w) = w := by
  have b0 : ∀ i, i < 4 → w.getLsbD (4 + i) = false := fun i hi => by
    simpa [reqRsv0, hi] using congrArg (fun v => v.getLsbD i) h0
  have b1 : ∀ i, i < 2 → w.getLsbD (14 + i) = false := fun i hi => by
    simpa [reqRsv1, hi] using congrArg (fun v => v.getLsbD i) h1
  have c0 := b0 0 (by omega)
  have c1 := b0 1 (by omega)
  have c2 := b0 2 (by omega)
  have c3 := b0 3 (by omega)
  have c4 := b1 0 (by omega)
  have c5 := b1 1 (by omega)
  apply BitVec.eq_of_getLsbD_eq
  intro i hi
  simp only [reqOp, reqN, reqCmd, reqMid, requestWord, BitVec.getLsbD_extractLsb',
    BitVec.getLsbD_or, BitVec.getLsbD_shiftLeft, BitVec.getLsbD_setWidth]
  interval_cases i <;> simp_all

/-- Byte lists of one length are equal if their bytes are. -/
theorem bytes_ext (a b : List Byte) (hl : a.length = b.length)
    (h : ∀ i, i < a.length → a.getD i 0 = b.getD i 0) : a = b := by
  refine List.ext_getElem hl fun i h1 h2 => ?_
  have := h i h1
  rwa [List.getD_eq_getElem _ _ h1, List.getD_eq_getElem _ _ h2] at this

/-- A wire frame made of at most 32 bytes holds them from offset 0 and 0x00 beyond. -/
theorem readByte_wireOf (bs : List Byte) (h : bs.length ≤ 32) (a : Nat) :
    readByte (ofWire (wireOf bs)) a = bs.getD a 0 := by
  rw [ofWire, readByte_ofBytes, wireOf_toList, List.getD_eq_getElem?_getD, List.getD_eq_getElem?_getD,
    List.getElem?_take]
  by_cases ha : a < bs.length
  · rw [if_pos (by omega), List.getElem?_append_left ha]
  · rw [List.getElem?_eq_none (l := bs) (by omega)]
    split
    · rw [List.getElem?_append_right (by omega), List.getElem?_replicate]
      split <;> rfl
    · rfl

theorem outgoingHead_length (cmd mid : Byte) (p : List Byte) :
    (outgoingHead cmd mid p).length = 4 + p.length := by
  simp [outgoingHead]
  omega

theorem outgoingBytes_length (cmd mid : Byte) (p : List Byte) :
    (outgoingBytes cmd mid p).length = 5 + p.length := by
  rw [outgoingBytes, List.length_append, outgoingHead_length]
  simp
  omega

/-- The outgoing frame's bytes, offset by offset (R66). -/
theorem outgoingBytes_getD (cmd mid : Byte) (p : List Byte) (a : Nat) :
    (outgoingBytes cmd mid p).getD a 0 =
      if a = 4 + p.length then checksum (outgoingHead cmd mid p)
      else if 4 ≤ a ∧ a < 4 + p.length then p.getD (a - 4) 0
      else [0x55, BitVec.ofNat 8 (2 + p.length), cmd, mid].getD a 0 := by
  rw [outgoingBytes]
  by_cases h1 : a < 4 + p.length
  · rw [if_neg (by omega), List.getD_append _ _ _ _ (by rw [outgoingHead_length]; exact h1)]
    by_cases h4 : 4 ≤ a
    · rw [if_pos ⟨h4, h1⟩, outgoingHead, List.getD_append_right _ _ _ _ (by simpa using h4)]
      rfl
    · rw [if_neg (by omega), outgoingHead, List.getD_append _ _ _ _ (by simp; omega)]
      rfl
  · rw [List.getD_append_right _ _ _ _ (by rw [outgoingHead_length]; omega), outgoingHead_length]
    by_cases h2 : a = 4 + p.length
    · simp [h2]
    · obtain ⟨k, hk⟩ : ∃ k, a - (4 + p.length) = k + 1 := ⟨a - (4 + p.length) - 1, by omega⟩
      obtain ⟨j, hj⟩ : ∃ j, a = j + 4 := ⟨a - 4, by omega⟩
      rw [if_neg h2, if_neg (by omega), hk, hj]
      rfl

/-- `rotr32` is the library's rotation (R14). -/
theorem rotr32_eq_rotateRight (x : Word) (k : Nat) (h : k < 32) : rotr32 x k = x.rotateRight k := by
  rw [rotr32, BitVec.rotateRight, Nat.mod_eq_of_lt h, BitVec.rotateRightAux]

/-- Four bytes put together by shifts are their concatenation, the last one most significant. -/
theorem shifts_eq_append (a b c d : Byte) :
    (a.setWidth 32 ||| b.setWidth 32 <<< 8 ||| c.setWidth 32 <<< 16 ||| d.setWidth 32 <<< 24 : BitVec 32) =
      (d ++ c ++ b ++ a : BitVec 32) := by
  apply BitVec.eq_of_getLsbD_eq
  intro i hi
  have h3 := @BitVec.getLsbD_append (8 + 8 + 8) 8 i (d ++ c ++ b) a
  rw [@BitVec.getLsbD_append (8 + 8) 8 _ (d ++ c) b, @BitVec.getLsbD_append 8 8 _ d c] at h3
  refine Eq.trans ?_ h3.symm
  simp only [BitVec.getLsbD_or, BitVec.getLsbD_shiftLeft, BitVec.getLsbD_setWidth]
  interval_cases i <;> simp

/-- `le32` reads its four bytes with the lowest index least significant (R15). -/
theorem le32_eq_append (m : Memory) (a : Nat) :
    le32 m a = (readByte m (a + 3) ++ readByte m (a + 2) ++ readByte m (a + 1) ++ readByte m a : BitVec 32) :=
  shifts_eq_append _ _ _ _

end Sys2Proof.Laws
end

