-- ==== Sys2Proof/Laws/PerInstr.lean ====
section
/-! SUPPORT. A fact about every instruction as it is encoded, proved constructor by constructor. -/

namespace Sys2Proof.Laws

open Sys2Proof.Machine

/-- The unit matches a row of spec/opcode_table.json: a request word the row's match under its mask, a wire
frame the row's type byte at offset 0 (spec/30_encoding.md R66 to R68, R77). -/
def matchesRow (u : Presented) (mask mtch : Word) (typeByte : Byte) : Prop :=
  match u with
  | .request req => req &&& mask = mtch
  | .outgoing f => f.toList.getD 0 0 = typeByte
  | .received f => f.toList.getD 0 0 = typeByte

/-- A well-formed instruction's encoding matches its own row of the table. -/
def EncodeMatchesRow.Statement (i : Instr) : Prop :=
  i.wellFormed = true →
    match i with
    | .csum _ => matchesRow (encode i) 0xFFFFC0FF 0x00000000 0
    | .enc _ _ _ => matchesRow (encode i) 0x0000C0FF 0x00000001 0
    | .dec => matchesRow (encode i) 0xFFFFFFFF 0x00000002 0
    | .kdf _ => matchesRow (encode i) 0xFFFFC0FF 0x00000003 0
    | .frameOut _ _ _ => matchesRow (encode i) 0 0 0x55
    | .frameResp _ => matchesRow (encode i) 0 0 0x55
    | .frameEvt _ => matchesRow (encode i) 0 0 0x56

/-- A layout's type byte (R69), for a frame that passes the checks. -/
theorem hasKind_typeByte {f : WireFrame} {k : Kind} (h : f.hasKind k = true) :
    (k = .event ∧ f.toList.getD 0 0 = 0x56) ∨ (k = .response ∧ f.toList.getD 0 0 = 0x55) := by
  rw [WireFrame.hasKind] at h
  rcases classify_cases (ofWire f) with ⟨_, hc⟩ | ⟨_, _, hc⟩ | ⟨_, _, ⟨h0, hc⟩ | ⟨h0, hc⟩ | ⟨_, _, hc⟩⟩ <;>
    rw [hc] at h <;> simp only [ofWire, readByte_ofBytes] at *
  · exact absurd h (by simp)
  · exact absurd h (by simp)
  · exact .inl ⟨(beq_iff_eq.mp h).symm, h0⟩
  · exact .inr ⟨(beq_iff_eq.mp h).symm, h0⟩
  · exact absurd h (by simp)

theorem EncodeMatchesRow.csum (n : BitVec 6) : EncodeMatchesRow.Statement (.csum n) := by
  intro _
  show requestWord 0x0 n 0 0 &&& 0xFFFFC0FF = 0x00000000
  revert n
  decide

theorem EncodeMatchesRow.enc (cmd mid : Byte) (n : BitVec 6) :
    EncodeMatchesRow.Statement (.enc cmd mid n) := by
  intro _
  show requestWord 0x1 n cmd mid &&& 0x0000C0FF = 0x00000001
  apply BitVec.eq_of_getElem_eq
  intro i hi
  interval_cases i <;> simp [requestWord]

theorem EncodeMatchesRow.dec : EncodeMatchesRow.Statement .dec := fun _ => by
  show requestWord 0x2 0 0 0 &&& 0xFFFFFFFF = 0x00000002
  decide

theorem EncodeMatchesRow.kdf (n : BitVec 6) : EncodeMatchesRow.Statement (.kdf n) := by
  intro _
  show requestWord 0x3 n 0 0 &&& 0xFFFFC0FF = 0x00000003
  revert n
  decide

theorem EncodeMatchesRow.frameOut (cmd mid : Byte) (p : List Byte) :
    EncodeMatchesRow.Statement (.frameOut cmd mid p) := fun _ => rfl

theorem EncodeMatchesRow.frameResp (f : WireFrame) : EncodeMatchesRow.Statement (.frameResp f) := fun h =>
  (hasKind_typeByte h).resolve_left (by simp) |>.2

theorem EncodeMatchesRow.frameEvt (f : WireFrame) : EncodeMatchesRow.Statement (.frameEvt f) := fun h =>
  (hasKind_typeByte h).resolve_right (by simp) |>.2

end Sys2Proof.Laws
end

