-- ==== Sys2Proof/Tests/Slice0.lean ====
section
/-! SUPPORT. Tests: refused ill-formed terms, one decoding per constructor written out from the spec's encoding, one
step of each instruction against spec/95_test_vectors.md, and a witness for each obligation that has
hypotheses. Expected values are the spec's. -/

namespace Sys2Proof.Tests

open Sys2Proof.Machine Sys2Proof.Claims

/-- A state with the given operand bytes, template bytes and lines, and the reset record. -/
def stateOf (inp tmpl : List Byte) (lines : List HostLine) : State :=
  { result := ResultRecord.zero, tmpl := ofBytes tmpl, inBuf := ofBytes inp, lines := lines }

/-- The record a run of `exec` or `step` leaves, if it goes on. -/
def recordOf : Host.Outcome State Fault Refusal → Option ResultRecord
  | .next s => some s.result
  | .fault _ => none
  | .refused _ => none

/-- The wake frame of V-ENC-1. -/
def wakeFrame : List Byte :=
  [0x55, 0x0F, 0xB0, 0x01, 0x28, 0x63, 0x29, 0x20, 0x4C, 0x45, 0x47, 0x4F, 0x20, 0x32, 0x30, 0x31, 0x34, 0xF7]

/-- The event frame of V-DEC-3. -/
def scanFrame : List Byte :=
  [0x56, 0x0B, 0x01, 0x00, 0x00, 0x00, 0x04, 0x11, 0x22, 0x33, 0x44, 0x55, 0x80, 0xE5]

/-- The response frame of V-DEC-1. -/
def replyFrame : List Byte := [0x55, 0x04, 0x01, 0x00, 0xAA, 0xBB, 0xBF]

/-! ### WellFormed refuses each kind of ill-formed term -/

theorem test_wf_frameOut_28_bytes_refused :
    (Instr.frameOut 0xB0 0x01 (List.replicate 28 0x00)).wellFormed = false := by decide

theorem test_wf_frameOut_27_bytes : (Instr.frameOut 0xB0 0x01 (List.replicate 27 0x00)).wellFormed = true := by
  decide

theorem test_wf_frameResp_bad_checksum_refused :
    (Instr.frameResp (wireOf [0x55, 0x04, 0x01, 0x00, 0xAA, 0xBB, 0xC0])).wellFormed = false := by decide

theorem test_wf_frameResp_event_type_refused : (Instr.frameResp (wireOf scanFrame)).wellFormed = false := by decide

theorem test_wf_frameEvt_length_30_refused :
    (Instr.frameEvt (wireOf ([0x56, 0x1E] ++ List.replicate 29 0x00 ++ [0x74]))).wellFormed = false := by decide

theorem test_wf_frameEvt_response_type_refused : (Instr.frameEvt (wireOf replyFrame)).wellFormed = false := by decide

/-! ### Decoding, each word from 30_encoding.md R61 (MID, CMD, RSV1, N, RSV0, OP) or R66 to R68 -/

theorem test_decode_csum : decode (.request 0b00000000000000000010000000000000) = .ok (.csum 32) := by decide

theorem test_decode_enc : decode (.request 0b00000001101100000000110100000001) = .ok (.enc 0xB0 0x01 13) := by decide

theorem test_decode_dec : decode (.request 0b00000000000000000000000000000010) = .ok .dec := by decide

theorem test_decode_kdf : decode (.request 0b00000000000000000000011100000011) = .ok (.kdf 7) := by decide

theorem test_decode_frameOut : decode (.outgoing (wireOf wakeFrame)) =
    .ok (.frameOut 0xB0 0x01 [0x28, 0x63, 0x29, 0x20, 0x4C, 0x45, 0x47, 0x4F, 0x20, 0x32, 0x30, 0x31, 0x34]) := by
  decide

theorem test_decode_frameResp :
    decode (.received (wireOf replyFrame)) = .ok (.frameResp (wireOf replyFrame)) := by decide

theorem test_decode_frameEvt : decode (.received (wireOf scanFrame)) = .ok (.frameEvt (wireOf scanFrame)) := by
  decide

/-- V-DEC-8: a wrong type byte with a wrong checksum. -/
theorem test_decode_received_checksum_before_type :
    decode (.received (wireOf [0x57, 0x00, 0x00])) = .error (.raises .checksumMismatch) := by decide

/-- V-REQ-3: OP 0xF. -/
theorem test_decode_reserved_op : decode (.request 0xFFFFFFFF) = .error (.raises .illegalRequest) := by decide

/-! ### One step of each instruction -/

/-- V-CSUM-3. -/
theorem test_csum_32_ff :
    (recordOf (exec (.csum 32) (stateOf (List.replicate 32 0xFF) [] []))).map ResultRecord.csum = some 0xE0 := by
  decide

/-- V-CSUM-5. -/
theorem test_csum_33 :
    (recordOf (exec (.csum 33) (stateOf [] [] []))).map ResultRecord.status = some 0x05 := by decide

/-- V-ENC-1, V-SRC-5. -/
theorem test_enc_wake :
    (recordOf (exec (.enc 0xB0 0x01 13) (stateOf wakePayload [] []))).map ResultRecord.out =
      some (ofBytes wakeFrame) := by decide

/-- V-ENC-3: the checksum at offset 31. -/
theorem test_enc_27_bytes :
    (recordOf (exec (.enc 0x00 0xFF 27) (stateOf (List.replicate 27 0xFF) [] []))).map
      (fun r => (readByte r.out 31, r.csum)) = some (0x56, 0x56) := by decide

/-- V-DEC-1. -/
theorem test_dec_response :
    recordOf (exec .dec (stateOf replyFrame [] [])) =
      some { status := 0x00, valid := 1, kind := 1, code := 0x00, mid := 0x01, plen := 2, csum := 0xBF, pwd := 0,
             out := [(0, 0xAA), (1, 0xBB)] } := by decide

/-- V-DEC-9: the short response frame of R107. -/
theorem test_dec_short_response :
    recordOf (exec .dec (stateOf [0x55, 0x00, 0x55, 0x99] [] [])) =
      some { status := 0x00, valid := 1, kind := 1, code := 0x99, mid := 0x55, plen := 0, csum := 0x55, pwd := 0,
             out := [] } := by decide

/-- V-KDF-3, on the all-zero template. -/
theorem test_kdf_zero_template :
    (recordOf (exec (.kdf 7) (stateOf [0x04, 0x11, 0x22, 0x33, 0x44, 0x55, 0x80] [] []))).map
      (fun r => (r.pwd, r.out)) = some (0x55AB4EB7, [(0, 0x55), (1, 0xAB), (2, 0x4E), (3, 0xB7)]) := by decide

/-- V-KDF-7, on the candidate template of 93_implementation_defined.md I1, used as test data only. -/
theorem test_kdf_candidate_template :
    (recordOf (exec (.kdf 7) (stateOf [0x04, 0x11, 0x22, 0x33, 0x44, 0x55, 0x80]
      [0xFF, 0xFF, 0xFF, 0xFF, 0xFF, 0xFF, 0xFF, 0x28, 0x63, 0x29, 0x20, 0x43, 0x6F, 0x70, 0x79, 0x72, 0x69, 0x67,
        0x68, 0x74, 0x20, 0x4C, 0x45, 0x47, 0x4F, 0x20, 0x32, 0x30, 0x31, 0x34, 0xAA, 0xAA] []))).map
      ResultRecord.pwd = some 0x59F19EC2 := by decide

/-- R66 with the payload of V-ENC-7. -/
theorem test_frameOut :
    (recordOf (exec (.frameOut 0xD2 0x07 [0x01, 0x24]) (stateOf [] [] []))).map ResultRecord.out =
      some (ofBytes [0x55, 0x04, 0xD2, 0x07, 0x01, 0x24, 0x57]) := by decide

/-- V-DEC-10: `DEC` of the wake frame. -/
theorem test_frameResp :
    (recordOf (exec (.frameResp (wireOf wakeFrame)) (stateOf [] [] []))).map
      (fun r => (r.kind, r.mid, r.code, r.plen, r.csum)) = some (1, 0xB0, 0x01, 13, 0xF7) := by decide

/-- V-DEC-3. -/
theorem test_frameEvt :
    (recordOf (exec (.frameEvt (wireOf scanFrame)) (stateOf [] [] []))).map
      (fun r => (r.kind, r.mid, r.code, r.plen, r.csum)) = some (2, 0x00, 0x0B, 11, 0xE5) := by decide

/-- V-REQ-4: a reserved field before a bad frame. -/
theorem test_step_illegal_request :
    (recordOf (step (stateOf [0x55, 0xFF] [] [.present (.request 0x00000012)]))).map ResultRecord.status =
      some 0x06 := by decide

/-- `.in` with 33 bytes stops: `IN` has no index 32 (R40). -/
theorem test_in_33_bytes_faults :
    step (stateOf [] [] [.setIn (List.replicate 33 0x00)]) = .fault (.noSuchIndex 32) := rfl

/-- `WAKE 1` is the request 01B00D01 of V-SRC-5 on the wake payload. -/
theorem test_assemble_wake :
    assemble [.wake 0x01] = [.setIn wakePayload, .present (.request 0x01B00D01)] := by decide

/-- R23: the numbers name the nine registers, and no other. -/
theorem test_register_numbers (r : ResultReg) : regOfNumber (regNumber r) = some r ∧ regOfNumber 9 = none := by
  cases r <;> decide

/-! ### Witnesses: states and operands that meet every hypothesis of an obligation, at the ends of each range -/

theorem witness_ResetLineClearsTheResultRecord : (stateOf [] [] [.reset]).lines = .reset :: [] := rfl

/-- A run of the host's lines goes on, with a valid record before a reset. -/
theorem witness_ValidIsSetByRequestsAndClearedByReset :
    (stateOf [] [] [.present (.request 0x00000004)]).lines = .present (.request 0x00000004) :: [] ∧
      (recordOf (step (stateOf [] [] [.present (.request 0x00000004)]))).map ResultRecord.valid = some 1 ∧
      (recordOf (step { stateOf [] [] [.reset] with result := { ResultRecord.zero with valid := 1 } })).map
        ResultRecord.valid = some 0 := by decide

theorem witness_TemplateIsNeverWritten :
    step (stateOf [] [] [.reset]) = .next (stateOf [] [] []) := rfl

theorem witness_StepRunsTheDecodedInstruction :
    (stateOf [] [] [.present (.request 0x00000003)]).lines = .present (.request 0x00000003) :: [] ∧
      decode (.request 0x00000003) = .ok (.kdf 0) ∧ (Instr.kdf 0).wellFormed = true := by decide

theorem witness_PlacedWordIsTheNextInstruction :
    decodeTableWord 32 0xFFFF3F01 = some (.enc 0xFF 0xFF 63) := by decide

theorem witness_IdleStepChangesNothing : (stateOf [] [] []).lines = [] := rfl

theorem witness_DirectivesSetTheOperandBuffer :
    (stateOf [] [] [.setIn (List.replicate 32 0xFF)]).lines = .setIn (List.replicate 32 0xFF) :: [] ∧
      (List.replicate 32 (0xFF : Byte)).length ≤ 32 ∧ (stateOf [] [] [.setIn []]).lines = .setIn [] :: [] ∧
      (stateOf [] [] [.inFromOut]).lines = .inFromOut :: [] := by decide

theorem witness_OnlyHostSlipsStopAStep :
    step (stateOf [] [] [.present (.outgoing (wireOf [0x56]))]) = .refused .notOutgoingFrame ∧
      decode (.outgoing (wireOf [0x56])) = .error .notOutgoing := ⟨rfl, rfl⟩

/-- Words of each mask at its largest fields, and one of none. -/
theorem witness_RequestWordsAreToldApartByTheirMasks :
    (0x00003F00 : Word) &&& 0xFFFFC0FF = 0x00000000 ∧ (0xFFFF3F01 : Word) &&& 0x0000C0FF = 0x00000001 ∧
      (0x00003F03 : Word) &&& 0xFFFFC0FF = 0x00000003 ∧
      (0x00000004 : Word) &&& 0xFFFFC0FF ≠ 0x00000000 ∧ (0x00000004 : Word) &&& 0x0000C0FF ≠ 0x00000001 ∧
      (0x00000004 : Word) ≠ 0x00000002 ∧ (0x00000004 : Word) &&& 0xFFFFC0FF ≠ 0x00000003 := by decide

theorem witness_DecodeInvertsEncode :
    (Instr.csum 63).wellFormed = true ∧ (Instr.enc 0xFF 0xFF 63).wellFormed = true ∧ Instr.dec.wellFormed = true ∧
      (Instr.kdf 63).wellFormed = true ∧ (Instr.frameOut 0xFF 0xFF (List.replicate 27 0xFF)).wellFormed = true ∧
      (Instr.frameResp (wireOf replyFrame)).wellFormed = true ∧
      (Instr.frameEvt (wireOf scanFrame)).wellFormed = true := by decide

theorem witness_EncodeInvertsDecode :
    decode (.request 0x00000002) = .ok .dec ∧
      decode (.received (wireOf [0x56, 0x00, 0x56])) = .ok (.frameEvt (wireOf [0x56, 0x00, 0x56])) ∧
      decode (.outgoing (wireOf [0x55, 0x02, 0xFF, 0xFF, 0x55])) = .ok (.frameOut 0xFF 0xFF []) := by decide

theorem witness_ErrorsLeaveOnlyTheirStatus :
    decode (.request 0x0000000F) = .error (.raises .illegalRequest) ∧
      (stateOf [] [] [.present (.request 0x0000000F)]).lines = .present (.request 0x0000000F) :: [] ∧
      (recordOf (exec (.kdf 63) (stateOf [] [] []))).map ResultRecord.status = some 0x05 := by decide

/-- One word for each disjunct. -/
theorem witness_IllegalRequestComesFirst :
    (stateOf [] [] [.present (.request 0x00000004)]).lines = .present (.request 0x00000004) :: [] ∧
      4 ≤ ((0x00000004 : Word).extractLsb' 0 4).toNat ∧ (0x00000010 : Word).extractLsb' 4 4 ≠ 0 ∧
      (0x00008001 : Word).extractLsb' 14 2 ≠ 0 ∧
      (0x00010000 : Word).extractLsb' 0 4 = 0x0#4 ∧ (0x00010000 : Word).extractLsb' 16 16 ≠ 0 ∧
      (0x80000003 : Word).extractLsb' 0 4 = 0x3#4 ∧ (0x80000003 : Word).extractLsb' 16 16 ≠ 0 ∧
      (0x00000102 : Word).extractLsb' 0 4 = 0x2#4 ∧ (0x00000102 : Word).extractLsb' 8 24 ≠ 0 := by decide

theorem witness_OperationsRaiseOnlyTheirErrors :
    (stateOf [] [] [.present (.request 0x00000002)]).lines = .present (.request 0x00000002) :: [] ∧
      (0x00000002 : Word).extractLsb' 0 4 = 0x2#4 ∧ (0x00000000 : Word).extractLsb' 0 4 = 0x0#4 ∧
      (0x00000001 : Word).extractLsb' 0 4 = 0x1#4 ∧ (0x00000003 : Word).extractLsb' 0 4 = 0x3#4 ∧
      4 ≤ ((0x0000000F : Word).extractLsb' 0 4).toNat := by decide

/-- Two states that differ in their records and later lines only. -/
theorem witness_RecordDependsOnTheRequestOnly :
    (stateOf [0x01] [] [.present (.request 0x00000100)]).lines = .present (.request 0x00000100) :: [] ∧
      (stateOf [0x01] [] [.present (.request 0x00000100), .reset]).lines =
        .present (.request 0x00000100) :: [.reset] ∧
      sameOn (ofBytes [0x01]) (ofBytes [0x01]) 0 32 ∧ sameOn (ofBytes []) (ofBytes []) 0 32 :=
  ⟨rfl, rfl, fun _ _ _ => rfl, fun _ _ _ => rfl⟩

/-- The reset record, canonical spaces, and a step. -/
theorem witness_EveryStepKeepsTheRecordCoherent :
    (stateOf [] [] [.reset]).Inv ∧ step (stateOf [] [] [.reset]) = .next (stateOf [] [] []) :=
  ⟨⟨.inl ⟨rfl, rfl, rfl, rfl, rfl, rfl, rfl, rfl, rfl⟩, rfl, rfl, rfl⟩, rfl⟩

theorem witness_ChecksumReducesAtAnyTime : [0xFF, (0x01 : Byte)].Perm [0x01, 0xFF] := by decide

theorem witness_CsumLeavesTheSumOfTheFirstBytes : (0 : BitVec 6).toNat ≤ 32 ∧ (32 : BitVec 6).toNat ≤ 32 := by decide

theorem witness_CsumRefusesMoreThan32Bytes : 32 < (33 : BitVec 6).toNat ∧ 32 < (63 : BitVec 6).toNat := by decide

theorem witness_EncWritesTheOutgoingFrame : (0 : BitVec 6).toNat ≤ 27 ∧ (27 : BitVec 6).toNat ≤ 27 := by decide

theorem witness_EncRefusesMoreThan27Bytes : 27 < (28 : BitVec 6).toNat ∧ 27 < (63 : BitVec 6).toNat := by decide

/-- Buffers that differ right after the payload (V-ENC-7). -/
theorem witness_EncIgnoresBytesPastThePayload :
    sameOn (stateOf [0x01, 0x24, 0x09] [] []).inBuf (ofBytes [0x01, 0x24]) 0 (2 : BitVec 6).toNat ∧
      readByte (ofBytes [0x01, 0x24, 0x09]) 2 ≠ readByte (ofBytes [0x01, 0x24]) 2 := by
  refine ⟨fun i _ h => ?_, by decide⟩
  have h2 : i < 2 := h
  interval_cases i <;> rfl

theorem witness_DecRefusesLongFrames :
    30 ≤ (inAt (stateOf [0x55, 0x1E] [] []) 1).toNat ∧ 30 ≤ (inAt (stateOf [0x55, 0xFF] [] []) 1).toNat ∧
      (inAt (stateOf [0x55, 0x1D] [] []) 1).toNat ≤ 29 := by decide

/-- V-DEC-8 and V-DEC-6 for a mismatch; V-DEC-1 succeeds. -/
theorem witness_DecChecksTheSum :
    (inAt (stateOf [0x57, 0x00, 0x00] [] []) 1).toNat ≤ 29 ∧
      inAt (stateOf [0x57, 0x00, 0x00] [] []) 2 ≠ byteSum (stateOf [0x57, 0x00, 0x00] [] []).inBuf 2 ∧
      (inAt (stateOf replyFrame [] []) 1).toNat ≤ 29 ∧
      (recordOf (exec .dec (stateOf replyFrame [] []))).map ResultRecord.status = some 0x00 := by decide

/-- V-DEC-2, V-DEC-9 and V-DEC-7: each type byte at the smallest length. -/
theorem witness_DecBranchesOnTheTypeByte :
    (inAt (stateOf [0x56, 0x00, 0x56] [] []) 1).toNat ≤ 29 ∧
      inAt (stateOf [0x56, 0x00, 0x56] [] []) 2 = byteSum (stateOf [0x56, 0x00, 0x56] [] []).inBuf 2 ∧
      inAt (stateOf [0x56, 0x00, 0x56] [] []) 0 = 0x56 ∧
      inAt (stateOf [0x55, 0x00, 0x55] [] []) 2 = byteSum (stateOf [0x55, 0x00, 0x55] [] []).inBuf 2 ∧
      inAt (stateOf [0x57, 0x00, 0x57] [] []) 2 = byteSum (stateOf [0x57, 0x00, 0x57] [] []).inBuf 2 := by decide

/-- V-DEC-4: the longest event frame, its checksum at offset 31. -/
theorem witness_DecReadsEventFrames :
    let s := stateOf ([0x56, 0x1D] ++ (List.range 29).map (fun i => BitVec.ofNat 8 (i + 1)) ++ [0x26]) [] []
    (inAt s 1).toNat = 29 ∧ inAt s 31 = byteSum s.inBuf 31 ∧ inAt s 0 = 0x56 := by decide

/-- V-DEC-13 at `L = 2`, and an all-zero payload at `L = 29`. -/
theorem witness_DecReadsResponseFrames :
    let s := stateOf [0x55, 0x02, 0x03, 0x02, 0x5C] [] []
    let t := stateOf ([0x55, 0x1D] ++ List.replicate 29 0x00 ++ [0x72]) [] []
    ((inAt s 1).toNat = 2 ∧ inAt s 4 = byteSum s.inBuf 4 ∧ inAt s 0 = 0x55) ∧
      (inAt t 1).toNat = 29 ∧ inAt t 31 = byteSum t.inBuf 31 ∧ inAt t 0 = 0x55 := by decide

/-- V-DEC-9 and V-DEC-12. -/
theorem witness_DecReadsShortResponseFrames :
    let s := stateOf [0x55, 0x00, 0x55, 0x99] [] []
    let t := stateOf [0x55, 0x01, 0x07, 0x5D] [] []
    ((inAt s 1).toNat = 0 ∧ inAt s 2 = byteSum s.inBuf 2 ∧ inAt s 0 = 0x55) ∧
      (inAt t 1).toNat = 1 ∧ inAt t 3 = byteSum t.inBuf 3 ∧ inAt t 0 = 0x55 := by decide

/-- V-DEC-11: buffers that differ right after the checksum byte. -/
theorem witness_DecIgnoresPadding :
    let s := stateOf [0x56, 0x01, 0x42, 0x99, 0xDE, 0xAD] [] []
    sameOn s.inBuf (ofBytes [0x56, 0x01, 0x42, 0x99]) 0 (3 + (inAt s 1).toNat) ∧
      (inAt s 0 = 0x55 → inAt s 1 = 0x00 → readByte (ofBytes [0x56, 0x01, 0x42, 0x99]) 3 = inAt s 3) ∧
      inAt s 4 ≠ readByte (ofBytes [0x56, 0x01, 0x42, 0x99]) 4 := by
  refine ⟨fun i _ h => ?_, by decide, by decide⟩
  have h4 : i < 4 := h
  interval_cases i <;> rfl

/-- States with different records and templates, and the same buffer. -/
theorem witness_DecDependsOnTheBufferAlone :
    sameOn (stateOf replyFrame [] []).inBuf (stateOf replyFrame [0xFF] [.reset]).inBuf 0 32 := fun _ _ _ => rfl

theorem witness_DecodingAnEncodedFrameSwapsTheHeader :
    (0 : BitVec 6).toNat ≤ 27 ∧ (27 : BitVec 6).toNat ≤ 27 := by decide

theorem witness_KdfMixesEightRounds : (0 : BitVec 6).toNat ≤ 32 ∧ (32 : BitVec 6).toNat ≤ 32 := by decide

theorem witness_KdfRefusesMoreThan32Bytes : 32 < (33 : BitVec 6).toNat ∧ 32 < (63 : BitVec 6).toNat := by decide

/-- With `n = 32` any two templates will do; with `n = 1` they may differ at offset 0. -/
theorem witness_KdfDependsOnUidAndTemplateTail :
    sameOn (stateOf [0x01] [] []).tmpl (stateOf [0x01] [0xFF] []).tmpl (32 : BitVec 6).toNat 32 ∧
      sameOn (stateOf [0x01] [] []).inBuf (stateOf [0x01] [0xFF] []).inBuf 0 (32 : BitVec 6).toNat ∧
      readByte (stateOf [0x01] [] []).tmpl 0 ≠ readByte (stateOf [0x01] [0xFF] []).tmpl 0 :=
  ⟨fun i h h' => absurd (Nat.lt_of_lt_of_le h' h) (by decide +revert), fun _ _ _ => rfl, by decide⟩

theorem witness_OutgoingFrameRowIsWhatEncWrites :
    ([] : List Byte).length ≤ 27 ∧ (List.replicate 27 (0xFF : Byte)).length ≤ 27 := by decide

theorem witness_OutgoingFrameRowRefusesLongPayloads :
    27 < (List.replicate 28 (0xFF : Byte)).length ∧ 27 < (List.replicate 64 (0xFF : Byte)).length := by decide

theorem witness_ResponseFrameRowLeavesItsFields :
    (Instr.frameResp (wireOf [0x55, 0x00, 0x55, 0x99])).wellFormed = true ∧
      (Instr.frameResp (wireOf ([0x55, 0x1D] ++ List.replicate 29 0x00 ++ [0x72]))).wellFormed = true := by decide

theorem witness_EventFrameRowLeavesItsFields :
    (Instr.frameEvt (wireOf [0x56, 0x00, 0x56])).wellFormed = true ∧
      (Instr.frameEvt (wireOf ([0x56, 0x1D] ++ List.replicate 29 0x00 ++ [0x73]))).wellFormed = true := by decide

end Sys2Proof.Tests
end

/-! ### Proofs: the state, reset and VALID (spec/10_state.md) -/

namespace Sys2Proof.Proofs

open Sys2Proof.Machine Sys2Proof.Laws

/-! #### What a request word and a presented unit do -/

/-- The operation decoder's only error is IllegalRequest (R62, R65). -/
theorem decodeOp_cases (req : Word) :
    (∃ i, decodeOp req = .ok i) ∨ decodeOp req = .error (.raises .illegalRequest) := by
  rw [decodeOp]
  split
  · split
    · exact .inr rfl
    · exact .inl ⟨_, rfl⟩
  · exact .inl ⟨_, rfl⟩
  · split
    · exact .inr rfl
    · exact .inl ⟨_, rfl⟩
  · split
    · exact .inr rfl
    · exact .inl ⟨_, rfl⟩
  · exact .inr rfl

/-- A request word decodes to an instruction or raises IllegalRequest; nothing else can happen (R65). -/
theorem decode_request_cases (req : Word) :
    (∃ i, decode (.request req) = .ok i) ∨
      decode (.request req) = .error (.raises .illegalRequest) := by
  rw [decode, decodeRequest]
  split
  · exact .inr rfl
  · split
    · exact .inr rfl
    · exact decodeOp_cases req

/-- Every instruction goes on, with VALID set (R25, R35). -/
theorem exec_sets_valid (i : Instr) (s : State) : ∃ t, exec i s = .next t ∧ t.result.valid = 1 := by
  obtain ⟨r, hexec, -⟩ := exec_eq i s
  exact ⟨complete r s, hexec, complete_valid r s⟩

/-- A presented unit sets VALID, by its execution or by its decode error, unless it is refused. -/
theorem presentUnit_sets_valid_or_refuses (u : Presented) (s : State) :
    (∃ t, presentUnit u s = .next t ∧ t.result.valid = 1) ∨
      (decode u = .error .notOutgoing ∧ presentUnit u s = .refused .notOutgoingFrame) := by
  rcases presentUnit_cases u s with ⟨i, -, hrun⟩ | ⟨e, -, hrun⟩ | hrefused
  · exact .inl (hrun ▸ exec_sets_valid i s)
  · exact .inl ⟨raiseError e s, hrun, rfl⟩
  · exact .inr hrefused

/-- A request word is never refused, so it always sets VALID, succeed or fail (R25). -/
theorem presentUnit_request_sets_valid (req : Word) (s : State) :
    ∃ t, presentUnit (.request req) s = .next t ∧ t.result.valid = 1 := by
  refine (presentUnit_sets_valid_or_refuses (.request req) s).resolve_right ?_
  rintro ⟨hdecode, -⟩
  rcases decode_request_cases req with ⟨i, hi⟩ | hi <;> simp [hi] at hdecode

/-! #### VALID along one line and one step -/

/-- The step at a line of the host is that line's effect, with the line taken off. -/
theorem step_of_lines_cons {s : State} {l : HostLine} {rest : List HostLine} (h : s.lines = l :: rest) :
    step s = runLine l { s with lines := rest } := by
  rw [step, h]

/-- Every line but reset leaves VALID as it is or sets it. -/
theorem runLine_keeps_valid {l : HostLine} {s t : State} (hrun : runLine l s = .next t)
    (hl : l ≠ .reset) (hs : s.result.valid = 1) : t.result.valid = 1 := by
  cases l with
  | present u =>
    rw [runLine] at hrun
    rcases presentUnit_sets_valid_or_refuses u s with ⟨t', ht', hvalid⟩ | ⟨-, hrefused⟩
    · cases ht'.symm.trans hrun
      exact hvalid
    · cases hrefused.symm.trans hrun
  | setIn bytes =>
    rw [runLine] at hrun
    rcases presentIn_cases bytes s with ⟨-, hnext⟩ | ⟨-, hfault⟩
    · cases hnext.symm.trans hrun
      exact hs
    · cases hfault.symm.trans hrun
  | inFromOut =>
    cases hrun
    exact hs
  | reset => exact absurd rfl hl

/-- A step that turns VALID from 1 to 0 took a reset line: an idle step changes nothing, and every other
line keeps VALID. -/
theorem step_clears_valid_only_by_reset {s t : State} (hstep : step s = .next t)
    (hs : s.result.valid = 1) (ht : t.result.valid = 0) : ∃ rest, s.lines = .reset :: rest := by
  have hne : t.result.valid ≠ 1 := by simp [ht]
  rcases step_cases s with ⟨-, hidle⟩ | ⟨l, rest, hlines, hline⟩
  · cases hidle.symm.trans hstep
    exact absurd hs hne
  · have hl : l = .reset := by
      by_contra hl
      exact hne (runLine_keeps_valid (hline.symm.trans hstep) hl hs)
    exact ⟨rest, hl ▸ hlines⟩

/-! #### The obligations -/

/-- Settles O4: requests set VALID because no request word is refused, and reset is the only line that
clears it. -/
theorem validIsSetByRequestsAndClearedByReset : Obligations.ValidIsSetByRequestsAndClearedByReset := by
  refine ⟨rfl, fun s req rest hlines => ?_, fun s rest hlines => ?_,
    fun s t => step_clears_valid_only_by_reset⟩
  · rw [step_of_lines_cons hlines]
    exact presentUnit_request_sets_valid req _
  · exact ⟨_, step_of_lines_cons hlines, rfl⟩

/-- Settles O1: the record is the zero record, whose `OUT` lists no byte, and `TMPL` holds the parameter's
bytes. -/
theorem resetGivesTheTableOfResetValues : Obligations.ResetGivesTheTableOfResetValues :=
  ⟨rfl, rfl, rfl, rfl, rfl, rfl, rfl, rfl, fun a _ => readByte_nil a,
    fun a _ => readByte_ofBytes Config.kdfTemplate.toList a⟩

end Sys2Proof.Proofs

/-! ### Proofs: the outgoing frame that ENC writes (spec/30_encoding.md R66, spec/41_frame_encode.md) -/

namespace Sys2Proof.Proofs

open Sys2Proof.Machine Sys2Proof.Laws Sys2Proof.Claims

/-- The block's checksum of `B[0 .. k)` is the exact sum of those bytes mod 256 (R80). -/
theorem checksum_slice_zero_eq_byteSum (m : Memory) (k : Nat) : checksum (slice m 0 k) = byteSum m k := by
  have hsum : ((slice m 0 k).map BitVec.toNat).sum = ∑ i ∈ Finset.range k, (readByte m i).toNat := by
    simp only [slice, readBytes, List.map_map, Nat.sub_zero, Nat.zero_add]
    rfl
  rw [checksum, byteSum, hsum]

/-- `ENC` of at most 27 bytes replaces the record by that of its frame and changes nothing else. -/
theorem exec_enc_leaves (cmd mid : Byte) (n : BitVec 6) (s : State) (hn : n.toNat ≤ 27) :
    exec (.enc cmd mid n) s =
      leaves s { encRecord cmd mid (slice s.inBuf 0 n.toNat) with valid := 1 } := by
  obtain ⟨r, hexec, -, -, henc, -⟩ := exec_eq (.enc cmd mid n) s
  rw [hexec, henc cmd mid n rfl, encOp_eq, if_pos hn]
  rfl

section OutgoingFrame

variable (cmd mid : Byte) (p : List Byte)

/-- The four header bytes of the frame: type, length, command, message id. -/
theorem encRecord_out_header (a : Nat) (ha : a < 4) :
    readByte (encRecord cmd mid p).out a = [0x55, BitVec.ofNat 8 (2 + p.length), cmd, mid].getD a 0 := by
  rw [encRecord_out, if_neg (by omega), if_neg (by omega)]

/-- The length byte of a frame that `ENC` may write counts the two header bytes and the payload unreduced. -/
theorem encRecord_out_length (hp : p.length ≤ 27) :
    (readByte (encRecord cmd mid p).out 1).toNat = 2 + p.length := by
  rw [encRecord_out_header cmd mid p 1 (by decide)]
  exact Nat.mod_eq_of_lt (by omega)

/-- The payload stands from offset 4 (R92). -/
theorem encRecord_out_payload (i : Nat) (hi : i < p.length) :
    readByte (encRecord cmd mid p).out (4 + i) = p.getD i 0 := by
  rw [encRecord_out, if_neg (by omega), if_pos (by omega), Nat.add_sub_cancel_left]

/-- Right after the payload stands the byte that `CSUM` also holds (R93). -/
theorem encRecord_out_checksum :
    readByte (encRecord cmd mid p).out (4 + p.length) = (encRecord cmd mid p).csum := by
  rw [encRecord_out, if_pos rfl]
  rfl

/-- Past the checksum byte the frame is 0x00 (R94). -/
theorem encRecord_out_padding (a : Nat) (ha : 5 + p.length ≤ a) :
    readByte (encRecord cmd mid p).out a = 0x00 := by
  rw [encRecord_out, if_neg (by omega), if_neg (by omega)]
  exact List.getD_eq_default _ _ (by simp only [List.length_cons, List.length_nil]; omega)

/-- The checksum is the sum of the finished frame's bytes before it: writing it at `4+n` leaves the summed
bytes as they were (R93). -/
theorem encRecord_csum_eq_byteSum :
    (encRecord cmd mid p).csum = byteSum (encRecord cmd mid p).out (4 + p.length) := by
  rw [← checksum_slice_zero_eq_byteSum]
  refine congrArg checksum (slice_congr _ _ _ _ fun i _ hi => ?_)
  exact (readByte_writeByte_other _ _ _ _ (Nat.ne_of_lt hi)).symm

end OutgoingFrame

/-- Settles O25: the record is `encRecord` of the `n` operand bytes, whose frame the lemmas above read
offset by offset. -/
theorem encWritesTheOutgoingFrame : Obligations.EncWritesTheOutgoingFrame := by
  intro cmd mid n s hn
  have hexec := exec_enc_leaves cmd mid n s hn
  have hlen : (slice s.inBuf 0 n.toNat).length = n.toNat := slice_length _ _ _
  have hpayload : ∀ i, i < n.toNat → (slice s.inBuf 0 n.toNat).getD i 0 = inAt s i := fun i hi => by
    rw [slice_getD, Nat.sub_zero, if_pos hi, Nat.zero_add]
  generalize slice s.inBuf 0 n.toNat = p at hexec hlen hpayload
  rw [← hlen] at hn hpayload ⊢
  have hheader := encRecord_out_header cmd mid p
  exact ⟨_, _, hexec, hheader 0 (by decide), encRecord_out_length cmd mid p hn, hheader 2 (by decide),
    hheader 3 (by decide), fun i hi => (encRecord_out_payload cmd mid p i hi).trans (hpayload i hi),
    encRecord_out_checksum cmd mid p, encRecord_csum_eq_byteSum cmd mid p, encRecord_out_padding cmd mid p⟩

end Sys2Proof.Proofs

/-! ### Proofs: the checksum and CSUM (spec/40_checksum.md R81, R83) -/

namespace Sys2Proof.Proofs

open Sys2Proof.Machine Sys2Proof.Laws Sys2Proof.Claims

/-! #### The checksum function (R80, R81) -/

/-- The empty sequence sums to 0 (R80). -/
@[simp] theorem checksum_nil : checksum [] = 0 := rfl

/-- One more byte is one more 8-bit addition: reducing the exact sum mod 256 commutes with adding. -/
theorem checksum_cons (b : Byte) (bs : List Byte) : checksum (b :: bs) = b + checksum bs := by
  rw [checksum, List.map_cons, List.sum_cons, BitVec.ofNat_add, BitVec.ofNat_toNat, BitVec.setWidth_eq,
    ← checksum]

/-- The checksum is the sum of its bytes in 8-bit arithmetic, reduced at every step. -/
theorem checksum_eq_sum (bs : List Byte) : checksum bs = bs.sum := by
  induction bs with
  | nil => exact checksum_nil
  | cons b bs ih => rw [checksum_cons, ih, List.sum_cons]

/-- The checksum sees the bytes only through their sum, so their order does not matter (R81). -/
theorem checksum_perm {bs bs' : List Byte} (h : bs.Perm bs') : checksum bs = checksum bs' := by
  rw [checksum_eq_sum, checksum_eq_sum, h.sum_eq]

/-- Elements wider than a byte may be summed exactly and reduced once at the end (R81). -/
theorem checksum_map_ofNat (vs : List Nat) :
    checksum (vs.map (BitVec.ofNat 8)) = BitVec.ofNat 8 vs.sum := by
  induction vs with
  | nil => exact checksum_nil
  | cons v vs ih => rw [List.map_cons, checksum_cons, ih, List.sum_cons, BitVec.ofNat_add]

/-- A byte keeps nothing of an element but its residue. -/
theorem byte_ofNat_mod (v : Nat) : BitVec.ofNat 8 (v % 256) = BitVec.ofNat 8 v :=
  BitVec.eq_of_toNat_eq (Nat.mod_mod v 256)

/-! #### The obligations -/

/-- Settles O22: the fold is the sum of the bytes (`checksum_eq_sum`), which no permutation changes, and a
list of wider elements has the bytes of its list of residues. -/
theorem checksumReducesAtAnyTime : Obligations.ChecksumReducesAtAnyTime := by
  refine ⟨fun bs => ?_, fun bs bs' => checksum_perm, checksum_map_ofNat, fun vs => ?_⟩
  · rw [checksum_eq_sum, List.sum_eq_foldl]
  · exact congrArg checksum (List.map_congr_left fun v _ => (byte_ofNat_mod v).symm)

/-- Settles O24: above 32 `CSUM` is the error branch of `csumOp_eq`, and the raised error leaves its record. -/
theorem csumRefusesMoreThan32Bytes : Obligations.CsumRefusesMoreThan32Bytes := by
  intro n s hn
  obtain ⟨r, hexec, -, hcsum, -⟩ := exec_eq (.csum n) s
  rw [hexec, hcsum n rfl, csumOp_eq, if_neg (Nat.not_le.mpr hn)]
  rfl

end Sys2Proof.Proofs

/-! ### Proofs: what ENC refuses and what it reads (spec/41_frame_encode.md R91, R96) -/

namespace Sys2Proof.Proofs

open Sys2Proof.Machine Sys2Proof.Laws Sys2Proof.Claims

/-- Settles O26: above 27 `ENC` is the error branch of `encOp_eq`, and the raised error leaves its record. -/
theorem encRefusesMoreThan27Bytes : Obligations.EncRefusesMoreThan27Bytes := by
  intro cmd mid n s hn
  obtain ⟨r, hexec, -, -, henc, -⟩ := exec_eq (.enc cmd mid n) s
  rw [hexec, henc cmd mid n rfl, encOp_eq, if_neg (Nat.not_le.mpr hn)]
  rfl

/-- Settles O27: a frame that fits is built from the payload slice, which the two buffers share; a longer
one is refused before any byte of `IN` is read. -/
theorem encIgnoresBytesPastThePayload : Obligations.EncIgnoresBytesPastThePayload := by
  intro cmd mid n s inp hsame
  by_cases hn : n.toNat ≤ 27
  · have hslice : slice s.inBuf 0 n.toNat = slice inp 0 n.toNat := slice_congr _ _ _ _ hsame
    refine ⟨_, exec_enc_leaves cmd mid n s hn, ?_⟩
    rw [exec_enc_leaves cmd mid n _ hn, hslice]
  · have hrefuses := encRefusesMoreThan27Bytes cmd mid n
    exact ⟨_, hrefuses s (Nat.lt_of_not_le hn), hrefuses _ (Nat.lt_of_not_le hn)⟩

end Sys2Proof.Proofs

/-! ### Proofs: what DEC answers (spec/42_frame_decode.md R100 to R107, R110, R111) -/

namespace Sys2Proof.Proofs

open Sys2Proof.Machine Sys2Proof.Laws Sys2Proof.Claims

/-! #### DEC by its checks -/

/-- The sum `DEC` compares the checksum byte with covers the offsets before that byte (R71). -/
theorem frameChecksum_eq_byteSum (m : Memory) (L : Nat) : frameChecksum m L = byteSum m (2 + L) :=
  checksum_slice_zero_eq_byteSum m (checksumAt L)

/-- The checks of R100 in terms of the buffer's bytes: length, checksum, type byte. -/
theorem classify_eq (m : Memory) :
    classify m =
      if 30 ≤ (readByte m 1).toNat then .error .frameTooLarge
      else if readByte m (2 + (readByte m 1).toNat) ≠ byteSum m (2 + (readByte m 1).toNat) then
        .error .checksumMismatch
      else if readByte m 0 = 0x56 then .ok .event
      else if readByte m 0 = 0x55 then .ok .response
      else .error .unknownFrameType := by
  rw [← frameChecksum_eq_byteSum]
  rfl

/-- `DEC` completes with `decOp` of the operand buffer. -/
theorem exec_dec_next (s : State) : exec .dec s = .next (complete (decOp s.inBuf) s) := by
  obtain ⟨r, hexec, hdec, -⟩ := exec_eq .dec s
  rw [hexec, hdec rfl]

/-- `DEC` by its checks: the record of the first one that fails, or that of the layout the type byte
selects; nothing else of the state changes. -/
theorem exec_dec_eq (s : State) :
    exec .dec s =
      if 30 ≤ (inAt s 1).toNat then fails s 0x02
      else if inAt s (2 + (inAt s 1).toNat) ≠ byteSum s.inBuf (2 + (inAt s 1).toNat) then fails s 0x03
      else if inAt s 0 = 0x56 then leaves s { eventRecord s.inBuf with valid := 1 }
      else if inAt s 0 = 0x55 then leaves s { responseRecord s.inBuf with valid := 1 }
      else fails s 0x04 := by
  rw [exec_dec_next, decOp, classify_eq]
  split_ifs <;> rfl

section AcceptedFrame

variable {s : State} (hlen : (inAt s 1).toNat ≤ 29)
  (hsum : inAt s (2 + (inAt s 1).toNat) = byteSum s.inBuf (2 + (inAt s 1).toNat))

include hlen hsum

/-- An accepted event frame leaves the event layout's record. -/
theorem exec_dec_of_event (htype : inAt s 0 = 0x56) :
    exec .dec s = leaves s { eventRecord s.inBuf with valid := 1 } := by
  rw [exec_dec_eq, if_neg (by omega), if_neg (not_not.mpr hsum), if_pos htype]

/-- An accepted response frame leaves the response layout's record. -/
theorem exec_dec_of_response (htype : inAt s 0 = 0x55) :
    exec .dec s = leaves s { responseRecord s.inBuf with valid := 1 } := by
  rw [exec_dec_eq, if_neg (by omega), if_neg (not_not.mpr hsum), if_neg (by simp [htype]), if_pos htype]

end AcceptedFrame

/-- Settles O28: the length check comes first, and no later outcome has its STATUS. -/
theorem decRefusesLongFrames : Obligations.DecRefusesLongFrames := by
  intro s
  refine ⟨fun hlong => ?_, fun hlen => ?_⟩
  · rw [exec_dec_eq, if_pos hlong]
  · have hok : (0x00 : Byte) ≠ 0x02 := by decide
    have hmismatch : (0x03 : Byte) ≠ 0x02 := by decide
    have hunknown : (0x04 : Byte) ≠ 0x02 := by decide
    rw [exec_dec_eq, if_neg (by omega)]
    split_ifs
    · exact ⟨_, rfl, hmismatch⟩
    · exact ⟨_, rfl, hok⟩
    · exact ⟨_, rfl, hok⟩
    · exact ⟨_, rfl, hunknown⟩

/-- Settles O29: the checksum test stands before the type byte's, and only the two layouts' records, which
both hold the frame's checksum, have STATUS OK. -/
theorem decChecksTheSum : Obligations.DecChecksTheSum := by
  intro s hlen
  have hexec := exec_dec_eq s
  rw [if_neg (by omega)] at hexec
  refine ⟨fun hne => by rw [hexec, if_pos hne], fun t hnext hstatus => ?_⟩
  have hcsum := frameChecksum_eq_byteSum s.inBuf (inAt s 1).toNat
  rw [hnext] at hexec
  split_ifs at hexec with hne hevent hresponse <;> cases hexec
  · exact absurd hstatus (by decide : (0x03 : Byte) ≠ 0x00)
  · exact ⟨hcsum, hcsum.trans (not_not.mp hne).symm⟩
  · exact ⟨hcsum, hcsum.trans (not_not.mp hne).symm⟩
  · exact absurd hstatus (by decide : (0x04 : Byte) ≠ 0x00)

/-! #### The fields of the two layouts -/

/-- A slice copied to an empty `OUT`: its bytes from index 0, and 0x00 beyond. -/
theorem readByte_writeBytes_slice (m : Memory) (a b i : Nat) :
    readByte (writeBytes [] 0 (slice m a b)) i = if i < b - a then readByte m (a + i) else 0x00 :=
  (readByte_ofBytes _ i).trans (slice_getD m a b i)

/-- A slice whose end is not past its start holds nothing (R13). -/
theorem slice_eq_nil (m : Memory) {a b : Nat} (h : b ≤ a) : slice m a b = [] := by
  rw [← List.length_eq_zero_iff, slice_length, Nat.sub_eq_zero_of_le h]

/-- Settles O31: the record is `eventRecord`, whose `OUT` is the copied slice from offset 2. -/
theorem decReadsEventFrames : Obligations.DecReadsEventFrames := by
  intro s hlen hsum htype
  have hexec := exec_dec_of_event hlen hsum htype
  have hread := readByte_writeBytes_slice s.inBuf 2 (2 + (inAt s 1).toNat)
  rw [hsum, ← frameChecksum_eq_byteSum]
  refine ⟨_, hexec, fun i hi => ?_, fun a ha => ?_⟩
  · exact (hread i).trans (if_pos (by omega))
  · exact (hread a).trans (if_neg (by omega))

/-- Settles O32: the record is `responseRecord`, whose `OUT` is the copied slice from offset 4. -/
theorem decReadsResponseFrames : Obligations.DecReadsResponseFrames := by
  intro s hlen hlen2 hsum htype
  have hexec := exec_dec_of_response hlen hsum htype
  have hread := readByte_writeBytes_slice s.inBuf 4 (2 + (inAt s 1).toNat)
  rw [hsum, ← frameChecksum_eq_byteSum]
  refine ⟨_, hexec, fun i hi => ?_, fun a ha => ?_⟩
  · exact (hread i).trans (if_pos (by omega))
  · exact (hread a).trans (if_neg (by omega))

/-- A response layout of length byte 0 or 1 has no payload: `L - 2` is 0 and the slice from offset 4 is
empty (R107). -/
theorem responseRecord_short (m : Memory) (h : (readByte m 1).toNat < 2) :
    (responseRecord m).plen = 0 ∧ (responseRecord m).out = [] := by
  constructor
  · exact congrArg (BitVec.ofNat 6) (Nat.sub_eq_zero_of_le (Nat.le_of_lt h))
  · exact congrArg (writeBytes [] 0) (slice_eq_nil m (show 2 + (readByte m 1).toNat ≤ 4 by omega))

/-- Settles O33: the record is `responseRecord` without a payload; the sum of a frame of length byte 0 is
its type byte. -/
theorem decReadsShortResponseFrames : Obligations.DecReadsShortResponseFrames := by
  intro s hlen hsum htype
  have hexec := exec_dec_of_response (by omega) hsum htype
  obtain ⟨hplen, hout⟩ := responseRecord_short s.inBuf hlen
  refine ⟨?_, fun h0 => ?_, fun h1 => ?_⟩
  · rw [hexec, hsum, ← frameChecksum_eq_byteSum, ← hplen, ← hout]
    rfl
  · rw [h0] at hsum
    rw [hsum, byteSum, Finset.sum_range_succ, Finset.sum_range_one, h0, show readByte s.inBuf 0 = 0x55 from htype]
    rfl
  · rw [h1] at hsum
    exact hsum

/-! #### What DEC reads -/

section SameFrame

variable {m m' : Memory} (h : sameOn m m' 0 (3 + lengthByte m))

include h

/-- Two buffers that share a frame up to its checksum byte have the same length byte. -/
theorem lengthByte_congr : lengthByte m = lengthByte m' :=
  congrArg BitVec.toNat (h 1 (by omega) (by omega))

/-- The sum `DEC` compares with reads nothing past the last payload byte (R71). -/
theorem frameChecksum_congr : frameChecksum m (lengthByte m) = frameChecksum m' (lengthByte m) :=
  congrArg checksum (slice_congr m m' _ _ fun i h0 hi => h i h0 (by rw [checksumAt] at hi; omega))

/-- The checks read nothing past the checksum byte. -/
theorem classify_congr : classify m = classify m' := by
  have hat := h (checksumAt (lengthByte m)) (by omega) (by rw [checksumAt]; omega)
  rw [classify, classify, frameKind, frameKind, ← lengthByte_congr h, ← frameChecksum_congr h, ← hat,
    ← h 0 (by omega) (by omega)]

/-- The event layout reads nothing past the checksum byte. -/
theorem eventRecord_congr : eventRecord m = eventRecord m' := by
  have hpayload : slice m evtPayloadAt (checksumAt (lengthByte m)) =
      slice m' evtPayloadAt (checksumAt (lengthByte m)) :=
    slice_congr m m' _ _ fun i _ hi => h i (by omega) (by rw [checksumAt] at hi; omega)
  rw [eventRecord, eventRecord, ← lengthByte_congr h, ← frameChecksum_congr h, ← hpayload,
    ← h 1 (by omega) (by omega)]

/-- The response layout reads nothing past the checksum byte but the code byte of a frame of length byte 0
(R107). -/
theorem responseRecord_congr (hcode : readByte m 3 = readByte m' 3) : responseRecord m = responseRecord m' := by
  have hpayload : slice m msgPayloadAt (checksumAt (lengthByte m)) =
      slice m' msgPayloadAt (checksumAt (lengthByte m)) :=
    slice_congr m m' _ _ fun i _ hi => h i (by omega) (by rw [checksumAt] at hi; omega)
  rw [responseRecord, responseRecord, ← lengthByte_congr h, ← frameChecksum_congr h, ← hpayload, ← hcode,
    ← h 2 (by omega) (by omega)]

/-- `DEC` reads the frame up to its checksum byte, and the code byte. -/
theorem decOp_congr (hcode : readByte m 3 = readByte m' 3) : decOp m = decOp m' := by
  rw [decOp, decOp, classify_congr h, eventRecord_congr h, responseRecord_congr h hcode]

end SameFrame

/-- The 32 bytes decide `DEC`: an accepted frame ends within them, and a longer one is refused by its
length byte. -/
theorem decOp_eq_of_sameOn {m m' : Memory} (h : sameOn m m' 0 32) : decOp m = decOp m' := by
  by_cases hlen : lengthByte m ≤ 29
  · exact decOp_congr (fun i h0 hi => h i h0 (by omega)) (h 3 (by omega) (by omega))
  · have hlen' : 30 ≤ (readByte m 1).toNat := Nat.lt_of_not_le hlen
    rw [decOp, decOp, classify_eq, classify_eq, ← h 1 (by omega) (by omega), if_pos hlen', if_pos hlen']

/-- The record a request completes with does not depend on the state it completes in (R35). -/
theorem complete_leaves_same_record (r : Except Error ResultRecord) (s s' : State) :
    ∃ q, .next (complete r s) = leaves s q ∧ .next (complete r s') = leaves s' q := by
  cases r with
  | ok r => exact ⟨_, rfl, rfl⟩
  | error e => exact ⟨_, rfl, rfl⟩

/-- Settles O35: `DEC` completes with `decOp` of the operand buffer, which the 32 shared bytes decide. -/
theorem decDependsOnTheBufferAlone : Obligations.DecDependsOnTheBufferAlone := by
  intro s s' hsame
  rw [exec_dec_next, exec_dec_next, ← decOp_eq_of_sameOn hsame]
  exact complete_leaves_same_record (decOp s.inBuf) s s'

/-! #### DEC after ENC (R111) -/

/-- Settles O36: the frame `ENC` writes is, by its bytes, a response frame of length byte `2 + n`, whose
message id and code offsets hold `ENC`'s command and message id. -/
theorem decodingAnEncodedFrameSwapsTheHeader : Obligations.DecodingAnEncodedFrameSwapsTheHeader := by
  intro cmd mid n s hn
  obtain ⟨frame, c, henc, htype, hlen, hcmd, hmid, hpayload, hcsum, hc, -⟩ :=
    encWritesTheOutgoingFrame cmd mid n s hn
  obtain ⟨t, ht, rfl, rfl⟩ : ∃ t, exec (.enc cmd mid n) s = .next t ∧ t.result.out = frame ∧
      t.result.csum = c := ⟨_, henc, rfl, rfl⟩
  have hat : 2 + (readByte t.result.out 1).toNat = 4 + n.toNat := by omega
  have hplen : BitVec.ofNat 6 ((readByte t.result.out 1).toNat - 2) = n := by
    rw [hlen, Nat.add_sub_cancel_left, BitVec.ofNat_toNat, BitVec.setWidth_eq]
  have hsum : readByte t.result.out (2 + (readByte t.result.out 1).toNat) = t.result.csum := hat ▸ hcsum
  obtain ⟨out, hdec, hread, -⟩ := decReadsResponseFrames { t with inBuf := t.result.out }
    (by omega : (readByte t.result.out 1).toNat ≤ 29)
    (by omega : 2 ≤ (readByte t.result.out 1).toNat) (hsum.trans (hat ▸ hc)) htype
  refine ⟨t, _, ht, hdec, rfl, rfl, hcmd, hmid, hplen, fun i hi => ?_, hsum⟩
  have hi' : i < (readByte t.result.out 1).toNat - 2 := by omega
  exact (hread i hi').trans (hpayload i hi)

end Sys2Proof.Proofs

/-! ### Proofs: what KDF derives and refuses (spec/43_key_derivation.md R120 to R125) -/

namespace Sys2Proof.Proofs

open Sys2Proof.Machine Sys2Proof.Laws Sys2Proof.Claims

/-! #### The mixer, round by round -/

/-- The accumulator before round `i`; `kdfMix` is its value after the last round (`kdfMix_eq_accumulator`). -/
def kdfAccumulator (T : Memory) (i : Nat) : Word := (List.range i).foldl (kdfRound T) 0

/-- The accumulator starts from 0 (R122). -/
@[simp] theorem kdfAccumulator_zero (T : Memory) : kdfAccumulator T 0 = 0 := rfl

/-- Each round is applied to what the rounds before it left (R123). -/
theorem kdfAccumulator_succ (T : Memory) (i : Nat) :
    kdfAccumulator T (i + 1) = kdfRound T (kdfAccumulator T i) i := by
  simp only [kdfAccumulator, List.range_succ, List.foldl_append, List.foldl_cons, List.foldl_nil]

/-- The mixer runs eight rounds (R8, R122). -/
theorem kdfMix_eq_accumulator (T : Memory) : kdfMix T = kdfAccumulator T 8 := rfl

/-- One round in library terms: the word's byte at the highest index most significant, both rotations of the
value before the update (R15, R123). -/
theorem kdfRound_eq (T : Memory) (v2 : Word) (i : Nat) :
    kdfRound T v2 i =
      (readByte T (4 * i + 3) ++ readByte T (4 * i + 2) ++ readByte T (4 * i + 1) ++ readByte T (4 * i) :
          BitVec 32) +
        v2.rotateRight 25 + v2.rotateRight 10 - v2 := by
  rw [kdfRound, rotA, rotB, le32_eq_append, rotr32_eq_rotateRight v2 25 (by decide),
    rotr32_eq_rotateRight v2 10 (by decide)]

/-- The working copy for the UID `IN[0 .. n)`: its bytes below `n`, the template's from `n` on (R121). -/
theorem readByte_kdfOverlay_slice (tmpl inp : Memory) (n j : Nat) :
    readByte (kdfOverlay tmpl (slice inp 0 n)) j = if j < n then readByte inp j else readByte tmpl j := by
  rw [kdfOverlay_read, slice_length, slice_getD, Nat.sub_zero, Nat.zero_add]
  split <;> rfl

/-! #### KDF by its UID length -/

/-- `KDF` completes with `kdfOp` of its count, the operand buffer and the template. -/
theorem exec_kdf_next (n : BitVec 6) (s : State) :
    exec (.kdf n) s = .next (complete (kdfOp n.toNat s.inBuf s.tmpl) s) := by
  obtain ⟨r, hexec, -, -, -, hkdf, -⟩ := exec_eq (.kdf n) s
  rw [hexec, hkdf n rfl]

/-- `KDF` of at most 32 bytes replaces the record by that of the mixed working copy and changes nothing
else. -/
theorem exec_kdf_leaves (n : BitVec 6) (s : State) (hn : n.toNat ≤ 32) :
    exec (.kdf n) s =
      leaves s { kdfRecord (kdfMix (kdfOverlay s.tmpl (slice s.inBuf 0 n.toNat))) with valid := 1 } := by
  rw [exec_kdf_next, kdfOp_eq, if_pos hn]
  rfl

/-- `OUT` after `KDF`: the password's bytes, most significant first, and 0x00 beyond (R124). -/
theorem kdfRecord_out (v2 : Word) (a : Nat) :
    readByte (kdfRecord v2).out a = (be32bytes v2).getD a 0 :=
  readByte_ofBytes (be32bytes v2) a

/-! #### The obligations -/

/-- Settles O37: the sequence is the accumulator of the working copy, whose rounds `kdfRound_eq` reads byte
by byte, and the record is `kdfRecord` of its value after the eighth. -/
theorem kdfMixesEightRounds : Obligations.KdfMixesEightRounds := by
  intro n s hn T
  have hT : ∀ j, readByte (kdfOverlay s.tmpl (slice s.inBuf 0 n.toNat)) j = T j :=
    readByte_kdfOverlay_slice s.tmpl s.inBuf n.toNat
  have hexec := exec_kdf_leaves n s hn
  rw [kdfMix_eq_accumulator] at hexec
  generalize kdfOverlay s.tmpl (slice s.inBuf 0 n.toNat) = copy at hT hexec
  have hout := kdfRecord_out (kdfAccumulator copy 8)
  refine ⟨kdfAccumulator copy, _, kdfAccumulator_zero copy, fun i _ => ?_, hexec, hout 0, hout 1, hout 2, hout 3,
    fun a ha => ?_⟩
  · rw [kdfAccumulator_succ, kdfRound_eq, hT, hT, hT, hT]
  · rw [hout]
    exact List.getD_eq_default _ _ ha

/-- Settles O38: above 32 `KDF` is the error branch of `kdfOp_eq`, and the raised error leaves its record. -/
theorem kdfRefusesMoreThan32Bytes : Obligations.KdfRefusesMoreThan32Bytes := by
  intro n s hn
  rw [exec_kdf_next, kdfOp_eq, if_neg (Nat.not_le.mpr hn)]
  rfl

end Sys2Proof.Proofs

/-! ### Proofs: request words, coded and decoded (spec/30_encoding.md R61 to R65, R76, R77) -/

namespace Sys2Proof.Proofs

open Sys2Proof.Machine Sys2Proof.Laws Sys2Proof.Claims

/-! #### Decode and encode of a request word -/

/-- A word built from its fields with an OP that is not reserved reaches the operation decoder: its reserved
fields are 0. -/
theorem decode_requestWord (op : BitVec 4) (n : BitVec 6) (cmd mid : Byte) (hop : op.toNat < 4) :
    decode (.request (requestWord op n cmd mid)) = decodeOp (requestWord op n cmd mid) := by
  obtain ⟨hrop, hrsv0, -, hrsv1, -, -⟩ := requestWord_fields op n cmd mid
  rw [decode, decodeRequest, if_neg (by rw [hrop]; omega), if_neg (by simp [hrsv0, hrsv1])]

/-- The word of `CSUM n` decodes to it. -/
theorem decode_encode_csum (n : BitVec 6) : decode (encode (.csum n)) = .ok (.csum n) := by
  obtain ⟨hop, -, hn, -, hcmd, hmid⟩ := requestWord_fields 0x0 n 0 0
  rw [encode, decode_requestWord _ _ _ _ (by decide), decodeOp, hop, hn, hcmd, hmid]
  rfl

/-- The word of `ENC cmd, mid, n` decodes to it, whatever its three fields. -/
theorem decode_encode_enc (cmd mid : Byte) (n : BitVec 6) :
    decode (encode (.enc cmd mid n)) = .ok (.enc cmd mid n) := by
  obtain ⟨hop, -, hn, -, hcmd, hmid⟩ := requestWord_fields 0x1 n cmd mid
  rw [encode, decode_requestWord _ _ _ _ (by decide), decodeOp, hop, hn, hcmd, hmid]
  rfl

/-- The one word of `DEC` decodes to it. -/
theorem decode_encode_dec : decode (encode .dec) = .ok .dec := by
  obtain ⟨hop, -, hn, -, hcmd, hmid⟩ := requestWord_fields 0x2 0 0 0
  rw [encode, decode_requestWord _ _ _ _ (by decide), decodeOp, hop, hn, hcmd, hmid]
  rfl

/-- The word of `KDF n` decodes to it. -/
theorem decode_encode_kdf (n : BitVec 6) : decode (encode (.kdf n)) = .ok (.kdf n) := by
  obtain ⟨hop, -, hn, -, hcmd, hmid⟩ := requestWord_fields 0x3 n 0 0
  rw [encode, decode_requestWord _ _ _ _ (by decide), decodeOp, hop, hn, hcmd, hmid]
  rfl

/-- What the operation decoder accepts is well formed, and its encoding is the word of the fields read: the
fields it does not keep are held to 0. -/
theorem encode_of_decodeOp {req : Word} {i : Instr} (h : decodeOp req = .ok i) :
    i.wellFormed = true ∧ encode i = .request (requestWord (reqOp req) (reqN req) (reqCmd req) (reqMid req)) := by
  rw [decodeOp] at h
  split at h
  · next hop =>
    split at h <;> cases h
    next hunused =>
      obtain ⟨hcmd, hmid⟩ : reqCmd req = 0 ∧ reqMid req = 0 := by simpa using hunused
      exact ⟨rfl, by rw [hop, hcmd, hmid]; rfl⟩
  · next hop =>
    cases h
    exact ⟨rfl, by rw [hop]; rfl⟩
  · next hop =>
    split at h <;> cases h
    next hunused =>
      obtain ⟨hn, hcmd, hmid⟩ : reqN req = 0 ∧ reqCmd req = 0 ∧ reqMid req = 0 := by simpa using hunused
      exact ⟨rfl, by rw [hop, hn, hcmd, hmid]; rfl⟩
  · next hop =>
    split at h <;> cases h
    next hunused =>
      obtain ⟨hcmd, hmid⟩ : reqCmd req = 0 ∧ reqMid req = 0 := by simpa using hunused
      exact ⟨rfl, by rw [hop, hcmd, hmid]; rfl⟩
  · cases h

/-- A request word that decodes is the encoding of a well-formed instruction: its reserved fields are 0, so its
other fields make up the whole word. -/
theorem encode_of_decode_request {req : Word} {i : Instr} (h : decode (.request req) = .ok i) :
    i.wellFormed = true ∧ encode i = .request req := by
  rw [decode, decodeRequest] at h
  split at h
  · cases h
  · split at h
    · cases h
    · next hrsv =>
      obtain ⟨hrsv0, hrsv1⟩ : reqRsv0 req = 0 ∧ reqRsv1 req = 0 := by simpa using hrsv
      obtain ⟨hwf, hencode⟩ := encode_of_decodeOp h
      exact ⟨hwf, hencode.trans (congrArg Presented.request (requestWord_of_fields req hrsv0 hrsv1))⟩

/-- The four requests that a word can decode to, each with the word it comes from; every other word is an
illegal request. -/
theorem decode_request_inv (req : Word) :
    (∃ n, req = requestWord 0x0 n 0 0 ∧ decode (.request req) = .ok (.csum n)) ∨
      (∃ cmd mid n, req = requestWord 0x1 n cmd mid ∧ decode (.request req) = .ok (.enc cmd mid n)) ∨
      (req = requestWord 0x2 0 0 0 ∧ decode (.request req) = .ok .dec) ∨
      (∃ n, req = requestWord 0x3 n 0 0 ∧ decode (.request req) = .ok (.kdf n)) ∨
      decode (.request req) = .error (.raises .illegalRequest) := by
  rcases decode_request_cases req with ⟨i, hi⟩ | herror
  · have hword := (encode_of_decode_request hi).2
    cases i with
    | csum n => exact .inl ⟨n, (Presented.request.inj hword).symm, hi⟩
    | enc cmd mid n => exact .inr (.inl ⟨cmd, mid, n, (Presented.request.inj hword).symm, hi⟩)
    | dec => exact .inr (.inr (.inl ⟨(Presented.request.inj hword).symm, hi⟩))
    | kdf n => exact .inr (.inr (.inr (.inl ⟨n, (Presented.request.inj hword).symm, hi⟩)))
    | frameOut cmd mid p => cases hword
    | frameResp f => cases hword
    | frameEvt f => cases hword
  · exact .inr (.inr (.inr (.inr herror)))

/-! #### The masks of R77 -/

/-- A field that the mask covers has the value that the match gives it. -/
theorem field_of_masked {req mask mtch : Word} (h : req &&& mask = mtch) (start len : Nat)
    (hcovered : mask.extractLsb' start len = BitVec.allOnes len) :
    req.extractLsb' start len = mtch.extractLsb' start len := by
  rw [← h, BitVec.extractLsb'_and, hcovered, BitVec.and_allOnes]

/-- `CSUM`'s and `KDF`'s mask leaves open the count only. -/
theorem requestWord_of_masked {req mtch : Word} (h : req &&& 0xFFFFC0FF = mtch) (hrsv0 : reqRsv0 mtch = 0)
    (hrsv1 : reqRsv1 mtch = 0) : req = requestWord (reqOp mtch) (reqN req) (reqCmd mtch) (reqMid mtch) := by
  have hop : reqOp req = reqOp mtch := field_of_masked h 0 4 (by decide)
  have hcmd : reqCmd req = reqCmd mtch := field_of_masked h 16 8 (by decide)
  have hmid : reqMid req = reqMid mtch := field_of_masked h 24 8 (by decide)
  rw [← hop, ← hcmd, ← hmid, requestWord_of_fields req ((field_of_masked h 4 4 (by decide)).trans hrsv0)
    ((field_of_masked h 14 2 (by decide)).trans hrsv1)]

/-- `ENC`'s mask leaves open the count, the command and the message id. -/
theorem requestWord_of_enc_masked {req : Word} (h : req &&& 0x0000C0FF = 0x00000001) :
    req = requestWord 0x1 (reqN req) (reqCmd req) (reqMid req) := by
  have hop : reqOp req = 0x1 := field_of_masked h 0 4 (by decide)
  rw [← hop, requestWord_of_fields req (field_of_masked h 4 4 (by decide)) (field_of_masked h 14 2 (by decide))]

/-! #### The obligations -/

/-- Settles O11: a masked word is the request word of its fields, which decodes to its operation; and a word
that decodes matches its operation's row of the table. -/
theorem requestWordsAreToldApartByTheirMasks : Obligations.RequestWordsAreToldApartByTheirMasks := by
  intro req
  refine ⟨fun h => ?_, fun h => ?_, fun h => ?_, fun h => ?_, fun hcsum henc hdec hkdf => ?_⟩
  · exact (congrArg (fun w => decode (.request w)) (requestWord_of_masked h rfl rfl)).trans (decode_encode_csum _)
  · exact (congrArg (fun w => decode (.request w)) (requestWord_of_enc_masked h)).trans (decode_encode_enc _ _ _)
  · exact h ▸ decode_encode_dec
  · exact (congrArg (fun w => decode (.request w)) (requestWord_of_masked h rfl rfl)).trans (decode_encode_kdf _)
  · rcases decode_request_inv req with ⟨n, hreq, -⟩ | ⟨cmd, mid, n, hreq, -⟩ | ⟨hreq, -⟩ | ⟨n, hreq, -⟩ | herror
    · exact absurd (hreq ▸ EncodeMatchesRow.csum n rfl) hcsum
    · exact absurd (hreq ▸ EncodeMatchesRow.enc cmd mid n rfl) henc
    · exact absurd hreq hdec
    · exact absurd (hreq ▸ EncodeMatchesRow.kdf n rfl) hkdf
    · exact herror

/-- Settles O10: the ten words are closed terms, which the decoder reads by evaluation. -/
theorem requestWordsDecodeAsWritten : Obligations.RequestWordsDecodeAsWritten :=
  ⟨rfl, rfl, rfl, rfl, rfl, rfl, rfl, rfl, rfl, rfl⟩

/-- Settles O14: `encode` puts each field at its place and 0 into the fields the operation does not use. -/
theorem assemblerGivesTheRequestWords : Obligations.AssemblerGivesTheRequestWords := by
  refine ⟨fun n => ?_, fun cmd mid n => rfl, rfl, fun n => ?_, fun mid => ?_⟩
  · simp [assembleLine, encode, requestWord]
  · simp [assembleLine, encode, requestWord]
  · simp only [assembleLine, encode, requestWord, BitVec.or_assoc]
    rfl

end Sys2Proof.Proofs

/-! ### Proofs: wire frames, coded and decoded (spec/30_encoding.md R66 to R71) -/

namespace Sys2Proof.Proofs

open Sys2Proof.Machine Sys2Proof.Laws Sys2Proof.Claims

/-! #### The outgoing frame as bytes and as `ENC`'s memory -/

/-- Adjoining slices make one slice. -/
theorem slice_append_slice (m : Memory) {a b c : Nat} (hab : a ≤ b) (hbc : b ≤ c) :
    slice m a b ++ slice m b c = slice m a c := by
  have hsplit : c - a = (b - a) + (c - b) := by omega
  have hshift : ∀ j, a + (b - a + j) = b + j := fun j => by omega
  simp only [slice, readBytes, hsplit, List.range_add, List.map_append, List.map_map, Function.comp_def, hshift]

/-- A slice is the list of the bytes that its range reads. -/
theorem slice_eq_of_readByte {m : Memory} {a : Nat} {p : List Byte}
    (h : ∀ i, i < p.length → readByte m (a + i) = p.getD i 0) : slice m a (a + p.length) = p := by
  refine bytes_ext _ _ (by simp) fun i hi => ?_
  have hi' : i < p.length := by simpa using hi
  rw [slice_getD, if_pos (by omega), h i hi']

/-- The payload is read back from the space that holds it from index 0. -/
theorem slice_ofBytes (p : List Byte) : slice (ofBytes p) 0 p.length = p := by
  have h := slice_eq_of_readByte (m := ofBytes p) (a := 0) (p := p) fun i _ => by
    rw [readByte_ofBytes, Nat.zero_add]
  rwa [Nat.zero_add] at h

/-- A space with an outgoing frame's type byte and length byte holds the frame's head up to its payload's end. -/
theorem outgoingHead_of_slice {m : Memory} (htype : readByte m 0 = 0x55) (hlen : 2 ≤ lengthByte m) :
    outgoingHead (readByte m 2) (readByte m 3) (slice m 4 (2 + lengthByte m)) = slice m 0 (2 + lengthByte m) := by
  have hbyte : BitVec.ofNat 8 (2 + (2 + lengthByte m - 4)) = readByte m 1 := by
    rw [show 2 + (2 + lengthByte m - 4) = (readByte m 1).toNat by rw [← lengthByte]; omega,
      BitVec.ofNat_toNat, BitVec.setWidth_eq]
  have hhead : slice m 0 4 = [0x55, readByte m 1, readByte m 2, readByte m 3] := by
    rw [← htype]
    rfl
  rw [← slice_append_slice m (by omega : 0 ≤ 4) (by omega), hhead, outgoingHead, slice_length, ← hbyte]
  rfl

section OutgoingRecord

variable (cmd mid : Byte) (p : List Byte)

/-- The frame's checksum covers its head. -/
theorem encChecksum_eq : encChecksum cmd mid p = checksum (outgoingHead cmd mid p) := by
  have hpayload : slice (encHead cmd mid p) 4 (4 + p.length) = p := slice_eq_of_readByte fun i hi => by
    rw [encHead, readByte_writeBytes, show msgPayloadAt = 4 from rfl, if_pos (by omega), Nat.add_sub_cancel_left]
  have hhead : slice (encHead cmd mid p) 0 4 = [typeMsg, BitVec.ofNat 8 (msgHeaderLen + p.length), cmd, mid] := by
    refine bytes_ext _ _ rfl fun i hi => ?_
    have hi4 : i < 4 := by simpa using hi
    rw [slice_getD, if_pos hi4, encHead, readByte_writeBytes, show msgPayloadAt = 4 from rfl,
      if_neg (by omega), Nat.zero_add]
    exact readByte_ofBytes _ i
  rw [encChecksum, outgoingHead, show msgPayloadAt = 4 from rfl,
    ← slice_append_slice _ (by omega : 0 ≤ 4) (by omega), hpayload, hhead]

/-- The frame ends within the 32 bytes of `OUT`. -/
theorem encRecord_out_wf (hp : p.length ≤ 27) : (encRecord cmd mid p).out.wf = true := by
  have hheader : (ofBytes [typeMsg, BitVec.ofNat 8 (msgHeaderLen + p.length), cmd, mid]).wf = true :=
    ofBytes_wf _ (by simp)
  have hhead : (encHead cmd mid p).wf = true := writeBytes_wf p _ 4 (by omega) hheader
  exact writeByte_wf _ (4 + p.length) _ (by omega) hhead

/-- `ENC` writes the frame that the layout encodes (R66, R90). -/
theorem ofWire_outgoingBytes (hp : p.length ≤ 27) :
    ofWire (wireOf (outgoingBytes cmd mid p)) = (encRecord cmd mid p).out := by
  refine memory_ext _ _ (ofWire_wf _) (encRecord_out_wf cmd mid p hp) fun a _ => ?_
  rw [readByte_wireOf _ (by rw [outgoingBytes_length]; omega), outgoingBytes_getD, encRecord_out, encChecksum_eq]

/-! #### The layout test -/

/-- The outgoing layout, offset by offset. -/
theorem isOutgoing_iff (m : Memory) :
    isOutgoing m = true ↔
      readByte m 0 = 0x55 ∧ 2 ≤ lengthByte m ∧ lengthByte m ≤ 29 ∧
        readByte m (2 + lengthByte m) = frameChecksum m (lengthByte m) ∧
        ∀ a, 3 + lengthByte m ≤ a → a < 32 → readByte m a = 0x00 := by
  have hpadding : (slice m (checksumAt (lengthByte m) + 1) frameSize).all (· == 0x00) = true ↔
      ∀ a, 3 + lengthByte m ≤ a → a < 32 → readByte m a = 0x00 := by
    simp only [slice, readBytes, List.all_map, List.all_eq_true, List.mem_range, Function.comp_apply,
      beq_iff_eq, checksumAt, frameSize]
    refine ⟨fun h a ha ha32 => ?_, fun h j hj => h _ (by omega) (by omega)⟩
    have := h (a - (2 + lengthByte m + 1)) (by omega)
    rwa [Nat.add_sub_cancel' (by omega)] at this
  rw [isOutgoing, Bool.and_eq_true, hpadding]
  simp only [Bool.and_eq_true, beq_iff_eq, decide_eq_true_eq, and_assoc]
  rfl

/-- What `ENC` writes is an outgoing frame, whose length byte counts two header bytes and the payload. -/
theorem encRecord_isOutgoing (hp : p.length ≤ 27) :
    lengthByte (encRecord cmd mid p).out = 2 + p.length ∧ isOutgoing (encRecord cmd mid p).out = true := by
  have hlen : lengthByte (encRecord cmd mid p).out = 2 + p.length := encRecord_out_length cmd mid p hp
  have hat : 2 + (2 + p.length) = 4 + p.length := by omega
  refine ⟨hlen, (isOutgoing_iff _).mpr ?_⟩
  rw [hlen, frameChecksum_eq_byteSum, hat, encRecord_out_checksum]
  exact ⟨encRecord_out_header cmd mid p 0 (by decide), by omega, by omega, encRecord_csum_eq_byteSum cmd mid p,
    fun a ha _ => encRecord_out_padding cmd mid p a (by omega)⟩

end OutgoingRecord

/-- An outgoing frame is made up of the fields read from it: their encoding is its bytes up to the checksum. -/
theorem outgoingBytes_of_isOutgoing {m : Memory} (h : isOutgoing m = true) :
    outgoingBytes (readByte m 2) (readByte m 3) (slice m 4 (2 + lengthByte m)) = slice m 0 (3 + lengthByte m) := by
  obtain ⟨htype, hlen2, -, hsum, -⟩ := (isOutgoing_iff m).mp h
  have hlast : slice m (2 + lengthByte m) (3 + lengthByte m) = [readByte m (2 + lengthByte m)] := by
    rw [slice, show 3 + lengthByte m - (2 + lengthByte m) = 1 by omega]
    rfl
  rw [outgoingBytes, outgoingHead_of_slice htype hlen2,
    ← slice_append_slice m (Nat.zero_le _) (by omega : 2 + lengthByte m ≤ 3 + lengthByte m), hlast, hsum]
  rfl

/-- Two wire frames with the same bytes are the same frame. -/
theorem wireFrame_ext {f g : WireFrame} (h : ∀ a, readByte (ofWire f) a = readByte (ofWire g) a) : f = g := by
  refine Vector.toList_inj.mp (bytes_ext _ _ (by simp) fun i _ => ?_)
  simpa [ofWire] using h i

/-- A wire frame is given by its bytes up to where its padding begins. -/
theorem wireOf_slice {f : WireFrame} {k : Nat} (hk : k ≤ 32)
    (hpadding : ∀ a, k ≤ a → a < 32 → readByte (ofWire f) a = 0x00) : wireOf (slice (ofWire f) 0 k) = f := by
  refine wireFrame_ext fun a => ?_
  rw [readByte_wireOf _ (by rw [slice_length]; omega), slice_getD, Nat.sub_zero, Nat.zero_add]
  split
  · rfl
  · by_cases ha : a < 32
    · exact (hpadding a (by omega) ha).symm
    · exact (readByte_outside _ 0 a (ofWire_wf f) (by omega)).symm

/-! #### Decode and encode of a wire frame -/

/-- The outgoing frame of a payload of at most 27 bytes decodes to its own fields. -/
theorem decode_encode_frameOut (cmd mid : Byte) (p : List Byte) (hp : p.length ≤ 27) :
    decode (encode (.frameOut cmd mid p)) = .ok (.frameOut cmd mid p) := by
  obtain ⟨hlen, hout⟩ := encRecord_isOutgoing cmd mid p hp
  have hcmd : readByte (encRecord cmd mid p).out 2 = cmd := encRecord_out_header cmd mid p 2 (by decide)
  have hmid : readByte (encRecord cmd mid p).out 3 = mid := encRecord_out_header cmd mid p 3 (by decide)
  have hpayload : slice (encRecord cmd mid p).out msgPayloadAt (checksumAt (2 + p.length)) = p := by
    rw [msgPayloadAt, checksumAt, show 2 + (2 + p.length) = 4 + p.length by omega]
    exact slice_eq_of_readByte (encRecord_out_payload cmd mid p)
  rw [encode, decode, decodeOutgoing, ofWire_outgoingBytes cmd mid p hp]
  simp only [hout, if_true, hlen, hcmd, hmid, hpayload]

/-- Bytes that decode as an outgoing frame are the encoding of its fields. -/
theorem encode_of_decode_outgoing {f : WireFrame} {i : Instr} (h : decode (.outgoing f) = .ok i) :
    i.wellFormed = true ∧ encode i = .outgoing f := by
  rw [decode, decodeOutgoing] at h
  split at h
  · next hout =>
    cases h
    obtain ⟨-, -, hlen, -, hpadding⟩ := (isOutgoing_iff _).mp hout
    refine ⟨?_, congrArg Presented.outgoing ?_⟩
    · rw [Instr.wellFormed, decide_eq_true_eq, slice_length, checksumAt, msgPayloadAt, encPayloadMax]
      omega
    · exact (congrArg wireOf (outgoingBytes_of_isOutgoing hout)).trans (wireOf_slice (by omega) hpadding)
  · cases h

/-- A received frame has the layout that the checks of R100 answer. -/
theorem hasKind_iff (f : WireFrame) (k : Kind) : f.hasKind k = true ↔ classify (ofWire f) = .ok k := by
  rw [WireFrame.hasKind]
  split
  · next k' h => simp [h]
  · next e h => simp [h]

/-- A received buffer decodes to the row of its layout, or raises the error that `DEC` raises on it. -/
theorem decode_received_cases (f : WireFrame) :
    (∃ e, decOp (ofWire f) = .error e ∧ decode (.received f) = .error (.raises e)) ∨
      (f.hasKind .event = true ∧ decode (.received f) = .ok (.frameEvt f)) ∨
      (f.hasKind .response = true ∧ decode (.received f) = .ok (.frameResp f)) := by
  rw [hasKind_iff, hasKind_iff, decode, decodeReceived]
  rcases decOp_cases (ofWire f) with ⟨e, hclass, hdec⟩ | ⟨hclass, -⟩ | ⟨hclass, -⟩
  · exact .inl ⟨e, hdec, by rw [hclass]⟩
  · exact .inr (.inl ⟨hclass, by rw [hclass]⟩)
  · exact .inr (.inr ⟨hclass, by rw [hclass]⟩)

/-! #### The obligations -/

/-- Settles O12: constructor by constructor; a received row's unit is the frame itself, which the checks send
back to its row. -/
theorem decodeInvertsEncode : Obligations.DecodeInvertsEncode := by
  intro i hwf
  cases i with
  | csum n => exact decode_encode_csum n
  | enc cmd mid n => exact decode_encode_enc cmd mid n
  | dec => exact decode_encode_dec
  | kdf n => exact decode_encode_kdf n
  | frameOut cmd mid p => exact decode_encode_frameOut cmd mid p (of_decide_eq_true hwf)
  | frameResp f => rw [encode, decode, decodeReceived, (hasKind_iff f .response).mp hwf]
  | frameEvt f => rw [encode, decode, decodeReceived, (hasKind_iff f .event).mp hwf]

/-- Settles O13: unit by unit; no unit's decoder drops a byte or a field. -/
theorem encodeInvertsDecode : Obligations.EncodeInvertsDecode := by
  intro u i h
  cases u with
  | request req => exact encode_of_decode_request h
  | outgoing f => exact encode_of_decode_outgoing h
  | received f =>
    rcases decode_received_cases f with ⟨e, -, hf⟩ | ⟨hkind, hf⟩ | ⟨hkind, hf⟩ <;> cases hf.symm.trans h
    · exact ⟨hkind, rfl⟩
    · exact ⟨hkind, rfl⟩

end Sys2Proof.Proofs

/-! ### Proofs: the record a request leaves, and the machine's invariant (spec/10_state.md R24 to R36,
spec/60_exceptions.md R140 to R144) -/

namespace Sys2Proof.Proofs

open Sys2Proof.Machine Sys2Proof.Laws Sys2Proof.Claims

/-! #### What each instruction completes with -/

/-- `CSUM` completes with `csumOp` of its count and the operand buffer. -/
theorem exec_csum_next (n : BitVec 6) (s : State) :
    exec (.csum n) s = .next (complete (csumOp n.toNat s.inBuf) s) := by
  obtain ⟨r, hexec, -, hcsum, -⟩ := exec_eq (.csum n) s
  rw [hexec, hcsum n rfl]

/-- `ENC` completes with `encOp` of its fields and the operand buffer. -/
theorem exec_enc_next (cmd mid : Byte) (n : BitVec 6) (s : State) :
    exec (.enc cmd mid n) s = .next (complete (encOp cmd mid n.toNat s.inBuf) s) := by
  obtain ⟨r, hexec, -, -, henc, -⟩ := exec_eq (.enc cmd mid n) s
  rw [hexec, henc cmd mid n rfl]

/-- `FRAME.OUT` completes with the frame of its own payload, under `ENC`'s length check. -/
theorem exec_frameOut_next (cmd mid : Byte) (p : List Byte) (s : State) :
    exec (.frameOut cmd mid p) s =
      .next (complete (withinLimit encPayloadMax p.length .payloadTooLarge (encRecord cmd mid p)) s) := by
  obtain ⟨r, hexec, -, -, -, -, hframe, -⟩ := exec_eq (.frameOut cmd mid p) s
  rw [hexec, hframe cmd mid p rfl]

/-- Either received row completes with `decOp` of its frame. -/
theorem exec_received_next (f : WireFrame) (s : State) :
    exec (.frameResp f) s = .next (complete (decOp (ofWire f)) s) ∧
      exec (.frameEvt f) s = .next (complete (decOp (ofWire f)) s) := by
  obtain ⟨r, hresp, -, -, -, -, -, hr⟩ := exec_eq (.frameResp f) s
  obtain ⟨q, hevt, -, -, -, -, -, hq⟩ := exec_eq (.frameEvt f) s
  exact ⟨by rw [hresp, hr f (.inl rfl)], by rw [hevt, hq f (.inr rfl)]⟩

/-! #### The records requests leave -/

/-- The records that a request can leave, by what made them; `exec_leaves` says that there are no others. -/
inductive RequestRecord : ResultRecord → Prop
  | error (e : Error) : RequestRecord { errorRecord e with valid := 1 }
  | sum (c : Byte) : RequestRecord { ResultRecord.zero with csum := c, status := 0x00, valid := 1 }
  | frame (cmd mid : Byte) (p : List Byte) (hp : p.length ≤ 27) :
      RequestRecord { encRecord cmd mid p with valid := 1 }
  | event (m : Memory) (hlen : lengthByte m ≤ 29) : RequestRecord { eventRecord m with valid := 1 }
  | response (m : Memory) (hlen : lengthByte m ≤ 29) : RequestRecord { responseRecord m with valid := 1 }
  | password (v : Word) : RequestRecord { kdfRecord v with valid := 1 }

/-- An operation with a length check leaves its error's record, or its result's. -/
theorem withinLimit_leaves {limit n : Nat} {r : ResultRecord} (e : Error) (s : State)
    (h : n ≤ limit → RequestRecord { r with valid := 1 }) :
    ∃ q, RequestRecord q ∧ .next (complete (withinLimit limit n e r) s) = leaves s q := by
  rw [withinLimit_eq]
  split
  · next hn => exact ⟨_, h hn, rfl⟩
  · exact ⟨_, .error e, rfl⟩

/-- A buffer that passes the checks has a length byte of at most 29, its checksum at the checksum byte, and the
type byte of its layout (R101 to R104). -/
theorem accepted_of_classify_ok {m : Memory} {k : Kind} (h : classify m = .ok k) :
    lengthByte m ≤ 29 ∧ readByte m (2 + lengthByte m) = frameChecksum m (lengthByte m) ∧
      ((k = .event ∧ readByte m 0 = 0x56) ∨ (k = .response ∧ readByte m 0 = 0x55)) := by
  rcases classify_cases m with
    ⟨-, hk⟩ | ⟨-, -, hk⟩ | ⟨hlen, hsum, ⟨htype, hk⟩ | ⟨htype, hk⟩ | ⟨-, -, hk⟩⟩ <;> cases hk.symm.trans h
  · exact ⟨hlen, hsum, .inl ⟨rfl, htype⟩⟩
  · exact ⟨hlen, hsum, .inr ⟨rfl, htype⟩⟩

/-- `DEC` on any buffer leaves the record of an error or of one of the two layouts. -/
theorem decOp_leaves (m : Memory) (s : State) :
    ∃ q, RequestRecord q ∧ .next (complete (decOp m) s) = leaves s q := by
  rcases decOp_cases m with ⟨e, -, hdec⟩ | ⟨hclass, hdec⟩ | ⟨hclass, hdec⟩ <;> rw [hdec]
  · exact ⟨_, .error e, rfl⟩
  · exact ⟨_, .event m (accepted_of_classify_ok hclass).1, rfl⟩
  · exact ⟨_, .response m (accepted_of_classify_ok hclass).1, rfl⟩

/-- Every instruction replaces the record by one of `RequestRecord`, and changes nothing else (R35). -/
theorem exec_leaves (i : Instr) (s : State) : ∃ r, RequestRecord r ∧ exec i s = leaves s r := by
  cases i with
  | csum n =>
    rw [exec_csum_next]
    exact withinLimit_leaves _ s fun _ => .sum _
  | enc cmd mid n =>
    rw [exec_enc_next]
    exact withinLimit_leaves _ s fun hn => .frame cmd mid _ (by rw [operandBytes, slice_length]; exact hn)
  | dec =>
    rw [exec_dec_next]
    exact decOp_leaves s.inBuf s
  | kdf n =>
    rw [exec_kdf_next]
    exact withinLimit_leaves _ s fun _ => .password _
  | frameOut cmd mid p =>
    rw [exec_frameOut_next]
    exact withinLimit_leaves _ s fun hp => .frame cmd mid p hp
  | frameResp f =>
    rw [(exec_received_next f s).1]
    exact decOp_leaves (ofWire f) s
  | frameEvt f =>
    rw [(exec_received_next f s).2]
    exact decOp_leaves (ofWire f) s

namespace RequestRecord

variable {r : ResultRecord}

/-- Every request sets VALID (R25). -/
theorem valid_eq_one (h : RequestRecord r) : r.valid = 1 := by
  cases h <;> rfl

/-- A record whose STATUS is not OK is that of the error raised. -/
theorem eq_errorRecord (h : RequestRecord r) (hstatus : r.status ≠ 0) :
    ∃ e, r = { errorRecord e with valid := 1 } := by
  cases h with
  | error e => exact ⟨e, rfl⟩
  | sum c => exact absurd rfl hstatus
  | frame cmd mid p hp => exact absurd rfl hstatus
  | event m hlen => exact absurd rfl hstatus
  | response m hlen => exact absurd rfl hstatus
  | password v => exact absurd rfl hstatus

/-- `OUT` stays within its 32 bytes: each operation's length check bounds what it writes (R48). -/
theorem out_wf (h : RequestRecord r) : r.out.wf = true := by
  cases h with
  | error e => exact nil_wf
  | sum c => exact nil_wf
  | frame cmd mid p hp => exact encRecord_out_wf cmd mid p hp
  | event m hlen => exact ofBytes_wf _ (by rw [slice_length, checksumAt]; omega)
  | response m hlen => exact ofBytes_wf _ (by rw [slice_length, checksumAt]; omega)
  | password v => exact ofBytes_wf (be32bytes v) (by simp [be32bytes])

end RequestRecord

/-! #### The records meet the invariant -/

/-- A payload length of at most 29 fits the six bits of PLEN and of a request's count. -/
theorem toNat_ofNat_six {L : Nat} (hL : L ≤ 29) : (BitVec.ofNat 6 L).toNat = L :=
  Nat.mod_eq_of_lt (by omega)

/-- The frame `ENC` leaves is an outgoing frame, and CSUM repeats its checksum byte. -/
theorem isFrame_encRecord (cmd mid : Byte) (p : List Byte) (hp : p.length ≤ 27) :
    ResultRecord.isFrame { encRecord cmd mid p with valid := 1 } := by
  obtain ⟨hlen, hout⟩ := encRecord_isOutgoing cmd mid p hp
  refine ⟨⟨rfl, rfl, rfl, rfl⟩, rfl, hout, ?_⟩
  show (encRecord cmd mid p).csum =
    readByte (encRecord cmd mid p).out (checksumAt (lengthByte (encRecord cmd mid p).out))
  rw [hlen, checksumAt, show 2 + (2 + p.length) = 4 + p.length by omega, encRecord_out_checksum]

/-- The event layout: CODE and PLEN are the length byte, and the payload ends there (R105). -/
theorem isEvent_eventRecord (m : Memory) (hlen : lengthByte m ≤ 29) :
    ResultRecord.isEvent { eventRecord m with valid := 1 } := by
  have hplen : (eventRecord m).plen.toNat = lengthByte m := toNat_ofNat_six hlen
  refine ⟨rfl, rfl, hplen.trans_le hlen, hplen.symm, rfl, fun a ha => ?_⟩
  have hpast : lengthByte m ≤ a := hplen.ge.trans ha
  exact (readByte_writeBytes_slice m 2 (2 + lengthByte m) a).trans (if_neg (by omega))

/-- The response layout: PLEN is the length byte less its two header bytes, and the payload ends there
(R106, R107). -/
theorem isResponse_responseRecord (m : Memory) (hlen : lengthByte m ≤ 29) :
    ResultRecord.isResponse { responseRecord m with valid := 1 } := by
  have hplen : (responseRecord m).plen.toNat = lengthByte m - 2 := toNat_ofNat_six (by omega)
  refine ⟨rfl, hplen.trans_le (by omega), rfl, fun a ha => ?_⟩
  have hpast : lengthByte m - 2 ≤ a := hplen.ge.trans ha
  exact (readByte_writeBytes_slice m 4 (2 + lengthByte m) a).trans (if_neg (by omega))

/-- Every record a request leaves is coherent: an error's is bare, and each operation's has its own shape. -/
theorem RequestRecord.coherent {r : ResultRecord} (h : RequestRecord r) : r.Coherent := by
  cases h with
  | error e => exact .inr (.inl ⟨rfl, ⟨e, rfl⟩, rfl, rfl, rfl, rfl, rfl, rfl, rfl⟩)
  | sum c => exact .inr (.inr ⟨rfl, rfl, .inl ⟨⟨rfl, rfl, rfl, rfl⟩, rfl, rfl⟩⟩)
  | frame cmd mid p hp => exact .inr (.inr ⟨rfl, rfl, .inr (.inl (isFrame_encRecord cmd mid p hp))⟩)
  | event m hlen => exact .inr (.inr ⟨rfl, rfl, .inr (.inr (.inl (isEvent_eventRecord m hlen)))⟩)
  | response m hlen => exact .inr (.inr ⟨rfl, rfl, .inr (.inr (.inr (.inl (isResponse_responseRecord m hlen))))⟩)
  | password v => exact .inr (.inr ⟨rfl, rfl, .inr (.inr (.inr (.inr ⟨⟨rfl, rfl, rfl, rfl⟩, rfl, rfl⟩)))⟩)

/-- The reset record is coherent (R37). -/
theorem zero_coherent : ResultRecord.zero.Coherent :=
  .inl ⟨rfl, rfl, rfl, rfl, rfl, rfl, rfl, rfl, rfl⟩

/-! #### What one line and one step can do -/

/-- A line that goes on is a request, which replaces the record, a directive, which sets `IN`, or a reset. -/
theorem runLine_next_cases {l : HostLine} {s t : State} (h : runLine l s = .next t) :
    (∃ r, RequestRecord r ∧ t = { s with result := r }) ∨
      (∃ bs, bs.length ≤ 32 ∧ t = { s with inBuf := ofBytes bs }) ∨ t = presentOut s ∨ t = resetBlock s := by
  cases l with
  | present u =>
    rw [runLine] at h
    rcases presentUnit_cases u s with ⟨i, -, hrun⟩ | ⟨e, -, hrun⟩ | ⟨-, hrun⟩
    · obtain ⟨r, hr, hexec⟩ := exec_leaves i s
      cases (hrun.trans hexec).symm.trans h
      exact .inl ⟨r, hr, rfl⟩
    · cases hrun.symm.trans h
      exact .inl ⟨_, .error e, rfl⟩
    · cases hrun.symm.trans h
  | setIn bytes =>
    rw [runLine] at h
    rcases presentIn_cases bytes s with ⟨hlen, hrun⟩ | ⟨-, hrun⟩
    · cases hrun.symm.trans h
      exact .inr (.inl ⟨bytes, hlen, rfl⟩)
    · cases hrun.symm.trans h
  | inFromOut =>
    cases h
    exact .inr (.inr (.inl rfl))
  | reset =>
    cases h
    exact .inr (.inr (.inr rfl))

/-- No line writes the template (R34). -/
theorem runLine_keeps_tmpl {l : HostLine} {s t : State} (h : runLine l s = .next t) : t.tmpl = s.tmpl := by
  rcases runLine_next_cases h with ⟨r, -, rfl⟩ | ⟨bs, -, rfl⟩ | rfl | rfl <;> rfl

/-- Every line keeps the invariant. -/
theorem runLine_keeps_inv {l : HostLine} {s t : State} (hs : s.Inv) (h : runLine l s = .next t) : t.Inv := by
  obtain ⟨hrecord, hout, htmpl, hin⟩ := hs
  rcases runLine_next_cases h with ⟨r, hr, rfl⟩ | ⟨bs, hlen, rfl⟩ | rfl | rfl
  · exact ⟨hr.coherent, hr.out_wf, htmpl, hin⟩
  · exact ⟨hrecord, hout, htmpl, ofBytes_wf bs hlen⟩
  · exact ⟨hrecord, hout, htmpl, hout⟩
  · exact ⟨zero_coherent, nil_wf, htmpl, hin⟩

/-! #### The obligations -/

/-- Settles O21: an idle step changes nothing, and every line keeps the invariant, of which the lines
themselves are no part. -/
theorem everyStepKeepsTheRecordCoherent : Obligations.EveryStepKeepsTheRecordCoherent := by
  intro s t hs hstep
  rcases step_cases s with ⟨-, hidle⟩ | ⟨l, rest, -, hline⟩
  · cases hidle.symm.trans hstep
    exact hs
  · exact runLine_keeps_inv (s := { s with lines := rest }) hs (hline.symm.trans hstep)

/-- Settles O20: the record is the reset record, and the spaces are canonical. -/
theorem resetIsCoherent : Obligations.ResetIsCoherent :=
  ⟨zero_coherent, reset_spaces_wf⟩

/-- Settles O3: an idle step changes nothing, and no line writes the template. -/
theorem templateIsNeverWritten : Obligations.TemplateIsNeverWritten := by
  refine ⟨reset_tmpl, fun s t hstep => ?_⟩
  rcases step_cases s with ⟨-, hidle⟩ | ⟨l, rest, -, hline⟩
  · cases hidle.symm.trans hstep
    rfl
  · exact runLine_keeps_tmpl (s := { s with lines := rest }) (hline.symm.trans hstep)

/-- Settles O15: every instruction leaves a `RequestRecord`, whose VALID is 1. -/
theorem everyInstructionReplacesTheRecordOnly : Obligations.EveryInstructionReplacesTheRecordOnly := by
  intro i s
  obtain ⟨r, hr, hexec⟩ := exec_leaves i s
  exact ⟨r, hexec, hr.valid_eq_one⟩

/-- A presented unit whose decode raises an error leaves that error's record and changes nothing else. -/
theorem step_of_decode_error {s : State} {u : Presented} {e : Error} {rest : List HostLine}
    (hlines : s.lines = .present u :: rest) (hdecode : decode u = .error (.raises e)) :
    step s = fails { s with lines := rest } (errorStatus e) := by
  rw [step_of_lines_cons hlines, runLine, presentUnit, hdecode]
  rfl

/-- A presented unit that decodes is executed, taken off the lines. -/
theorem step_of_decode_ok {s : State} {u : Presented} {i : Instr} {rest : List HostLine}
    (hlines : s.lines = .present u :: rest) (hdecode : decode u = .ok i) :
    step s = exec i { s with lines := rest } := by
  rw [step_of_lines_cons hlines, runLine, presentUnit, hdecode]

/-- Settles O16: a decode error and an instruction's error leave the same record, and no other record of a
request has a STATUS other than OK. -/
theorem errorsLeaveOnlyTheirStatus : Obligations.ErrorsLeaveOnlyTheirStatus := by
  refine ⟨fun s u e rest => step_of_decode_error, fun i s t hnext hstatus => ?_, rfl, rfl, rfl, rfl, rfl, rfl⟩
  obtain ⟨r, hr, hexec⟩ := exec_leaves i s
  cases hexec.symm.trans hnext
  obtain ⟨e, rfl⟩ := hr.eq_errorRecord hstatus
  exact hexec

end Sys2Proof.Proofs

/-! ### Proofs: what the operations read and leave (spec/40_checksum.md, spec/42_frame_decode.md,
spec/43_key_derivation.md) -/

namespace Sys2Proof.Proofs

open Sys2Proof.Machine Sys2Proof.Laws Sys2Proof.Claims

/-! #### CSUM and ENC -/

/-- Settles O23: up to 32 bytes `CSUM` is the result branch of `csumOp_eq`, whose checksum is the exact sum. -/
theorem csumLeavesTheSumOfTheFirstBytes : Obligations.CsumLeavesTheSumOfTheFirstBytes := by
  intro n s hn
  rw [exec_csum_next, csumOp_eq, if_pos hn, checksum_slice_zero_eq_byteSum]
  rfl

/-- `CSUM` reads `IN[0 .. n)` only, and nothing when it refuses `n`. -/
theorem csumOp_congr {n : Nat} {inp inp' : Memory} (h : n ≤ 32 → sameOn inp inp' 0 n) :
    csumOp n inp = csumOp n inp' := by
  rw [csumOp_eq, csumOp_eq]
  split
  · next hn => rw [slice_congr inp inp' 0 n (h hn)]
  · rfl

/-- `ENC` reads `IN[0 .. n)` only, and nothing when it refuses `n` (R91, R96). -/
theorem encOp_congr {cmd mid : Byte} {n : Nat} {inp inp' : Memory} (h : n ≤ 27 → sameOn inp inp' 0 n) :
    encOp cmd mid n inp = encOp cmd mid n inp' := by
  rw [encOp_eq, encOp_eq]
  split
  · next hn => rw [slice_congr inp inp' 0 n (h hn)]
  · rfl

/-! #### DEC -/

/-- Settles O30: past the two checks `exec_dec_eq` leaves the type byte's three branches. -/
theorem decBranchesOnTheTypeByte : Obligations.DecBranchesOnTheTypeByte := by
  intro s hlen hsum
  refine ⟨fun hevent => ⟨_, exec_dec_of_event hlen hsum hevent, rfl, rfl⟩,
    fun hresponse => ⟨_, exec_dec_of_response hlen hsum hresponse, rfl, rfl⟩, fun hevent hresponse => ?_⟩
  rw [exec_dec_eq, if_neg (by omega), if_neg (not_not.mpr hsum), if_neg hevent, if_neg hresponse]

/-- `DEC` reads the frame up to its checksum byte, and the code byte of a response frame of length byte 0: any
longer frame has that byte before its end, and the event layout does not read it. -/
theorem decOp_congr_of_code {m m' : Memory} (h : sameOn m m' 0 (3 + lengthByte m))
    (hcode : readByte m 0 = 0x55 → readByte m 1 = 0x00 → readByte m' 3 = readByte m 3) : decOp m = decOp m' := by
  rcases decOp_cases m with ⟨e, hclass, hdec⟩ | ⟨hclass, hdec⟩ | ⟨hclass, hdec⟩
  · rw [hdec, decOp, ← classify_congr h, hclass]
  · rw [hdec, decOp, ← classify_congr h, hclass, eventRecord_congr h]
  · obtain ⟨-, -, htype⟩ := accepted_of_classify_ok hclass
    have hresponse : readByte m 0 = 0x55 := by simpa using htype
    have hcode' : readByte m 3 = readByte m' 3 := by
      by_cases hzero : lengthByte m = 0
      · exact (hcode hresponse (BitVec.eq_of_toNat_eq hzero)).symm
      · exact h 3 (by omega) (by omega)
    exact decOp_congr h hcode'

/-- Settles O34: `DEC` completes with `decOp` of the operand buffer, which reads no padding but that code byte. -/
theorem decIgnoresPadding : Obligations.DecIgnoresPadding := by
  intro s inp hsame hcode
  rw [exec_dec_next, exec_dec_next, ← decOp_congr_of_code hsame hcode]
  exact complete_leaves_same_record (decOp s.inBuf) s _

/-! #### KDF -/

/-- The rounds before `i` read the words of the working copy below `4 * i`. -/
theorem kdfAccumulator_congr {T T' : Memory} (i : Nat) (h : sameOn T T' 0 (4 * i)) :
    kdfAccumulator T i = kdfAccumulator T' i := by
  induction i with
  | zero => rfl
  | succ i ih =>
    rw [kdfAccumulator_succ, kdfAccumulator_succ, ih fun j h0 hj => h j h0 (by omega), kdfRound_eq, kdfRound_eq,
      h (4 * i) (by omega) (by omega), h (4 * i + 1) (by omega) (by omega), h (4 * i + 2) (by omega) (by omega),
      h (4 * i + 3) (by omega) (by omega)]

/-- The working copies are the same for the same UID and the same template bytes past it (R121). -/
theorem kdfOverlay_congr {n : Nat} {inp inp' tmpl tmpl' : Memory} (hin : sameOn inp inp' 0 n)
    (htmpl : sameOn tmpl tmpl' n 32) :
    sameOn (kdfOverlay tmpl (slice inp 0 n)) (kdfOverlay tmpl' (slice inp' 0 n)) 0 32 := by
  intro j h0 hj
  rw [readByte_kdfOverlay_slice, readByte_kdfOverlay_slice]
  split
  · next hjn => exact hin j h0 hjn
  · next hjn => exact htmpl j (by omega) hj

/-- `KDF` reads `IN[0 .. n)` and, of the template, the bytes that the UID does not cover; it reads nothing when
it refuses `n`. -/
theorem kdfOp_congr {n : Nat} {inp inp' tmpl tmpl' : Memory} (hin : n ≤ 32 → sameOn inp inp' 0 n)
    (htmpl : sameOn tmpl tmpl' n 32) : kdfOp n inp tmpl = kdfOp n inp' tmpl' := by
  rw [kdfOp_eq, kdfOp_eq]
  split
  · next hn =>
    rw [kdfMix_eq_accumulator, kdfMix_eq_accumulator, kdfAccumulator_congr 8 (kdfOverlay_congr (hin hn) htmpl)]
  · rfl

/-- Settles O39: `KDF` completes with `kdfOp`, which reads the shared bytes only. -/
theorem kdfDependsOnUidAndTemplateTail : Obligations.KdfDependsOnUidAndTemplateTail := by
  intro n s s' hin htmpl
  rw [exec_kdf_next, exec_kdf_next, ← kdfOp_congr (fun _ => hin) htmpl]
  exact complete_leaves_same_record (kdfOp n.toNat s.inBuf s.tmpl) s s'

end Sys2Proof.Proofs

/-! ### Proofs: the table's wire-frame rows (spec/30_encoding.md R66 to R68) -/

namespace Sys2Proof.Proofs

open Sys2Proof.Machine Sys2Proof.Laws Sys2Proof.Claims

/-! #### FRAME.OUT -/

/-- Settles O40: both leave `encRecord` of the payload, whose `OUT` is the encoded frame
(`ofWire_outgoingBytes`). -/
theorem outgoingFrameRowIsWhatEncWrites : Obligations.OutgoingFrameRowIsWhatEncWrites := by
  intro cmd mid p s hp
  have hn : (BitVec.ofNat 6 p.length).toNat = p.length := toNat_ofNat_six (by omega)
  refine ⟨{ encRecord cmd mid p with valid := 1 }, wireOf (outgoingBytes cmd mid p), ?_, ?_, rfl, fun a _ => ?_⟩
  · rw [exec_frameOut_next, withinLimit_le (limit := encPayloadMax) _ _ hp]
    rfl
  · rw [exec_enc_leaves cmd mid _ _ (by omega), hn, slice_ofBytes]
  · exact (congrArg (readByte · a) (ofWire_outgoingBytes cmd mid p hp)).symm.trans (readByte_ofBytes _ a)

/-- Settles O41: above 27 bytes the row is the error branch of its length check. -/
theorem outgoingFrameRowRefusesLongPayloads : Obligations.OutgoingFrameRowRefusesLongPayloads := by
  intro cmd mid p s hp
  rw [exec_frameOut_next, withinLimit_gt (limit := encPayloadMax) _ _ hp]
  rfl

/-! #### FRAME.RESP and FRAME.EVT -/

/-- Settles O42: a well-formed response frame's record is `responseRecord`, whose `OUT` is the slice from
offset 4. -/
theorem responseFrameRowLeavesItsFields : Obligations.ResponseFrameRowLeavesItsFields := by
  intro f s hwf b
  have hb : b = readByte (ofWire f) := funext fun i => (readByte_ofBytes f.toList i).symm
  clear_value b
  subst hb
  have hclass : classify (ofWire f) = .ok .response := (hasKind_iff f .response).mp hwf
  obtain ⟨-, hsum, -⟩ := accepted_of_classify_ok hclass
  have hread := readByte_writeBytes_slice (ofWire f) 4 (2 + (readByte (ofWire f) 1).toNat)
  refine ⟨(responseRecord (ofWire f)).out, ?_, fun i hi => ?_, fun a ha => ?_⟩
  · rw [(exec_received_next f s).1, decOp, hclass, ← lengthByte, hsum]
    rfl
  · exact (hread i).trans (if_pos (by omega))
  · exact (hread a).trans (if_neg (by omega))

/-- Settles O43: a well-formed event frame's record is `eventRecord`, whose `OUT` is the slice from offset 2. -/
theorem eventFrameRowLeavesItsFields : Obligations.EventFrameRowLeavesItsFields := by
  intro f s hwf b
  have hb : b = readByte (ofWire f) := funext fun i => (readByte_ofBytes f.toList i).symm
  clear_value b
  subst hb
  have hclass : classify (ofWire f) = .ok .event := (hasKind_iff f .event).mp hwf
  obtain ⟨-, hsum, -⟩ := accepted_of_classify_ok hclass
  have hread := readByte_writeBytes_slice (ofWire f) 2 (2 + (readByte (ofWire f) 1).toNat)
  refine ⟨(eventRecord (ofWire f)).out, ?_, fun i hi => ?_, fun a ha => ?_⟩
  · rw [(exec_received_next f s).2, decOp, hclass, ← lengthByte, hsum]
    rfl
  · exact (hread i).trans (if_pos (by omega))
  · exact (hread a).trans (if_neg (by omega))

/-- A step at a received buffer completes with `decOp` of it, whether the decoder answers a row or an error. -/
theorem step_received_next {s : State} {f : WireFrame} {rest : List HostLine}
    (hlines : s.lines = .present (.received f) :: rest) :
    step s = .next (complete (decOp (ofWire f)) { s with lines := rest }) := by
  rcases decode_received_cases f with ⟨e, hdec, hdecode⟩ | ⟨-, hdecode⟩ | ⟨-, hdecode⟩
  · rw [step_of_decode_error hlines hdecode, hdec]
    rfl
  · rw [step_of_decode_ok hlines hdecode, (exec_received_next f _).2]
  · rw [step_of_decode_ok hlines hdecode, (exec_received_next f _).1]

/-- Settles O44: all four complete with `decOp` of the buffer. -/
theorem receivedBuffersRunAsDec : Obligations.ReceivedBuffersRunAsDec := by
  intro f s
  obtain ⟨r, hdec, hrow⟩ := complete_leaves_same_record (decOp (ofWire f)) { s with inBuf := ofWire f } s
  obtain ⟨hresp, hevt⟩ := exec_received_next f s
  refine ⟨r, ?_, hresp.trans hrow, hevt.trans hrow, ?_⟩
  · rw [exec_dec_next, hdec]
  · rw [step_received_next rfl, hrow]

end Sys2Proof.Proofs

/-! ### Proofs: the host's port, one line a step (spec/20_memory.md R51, spec/30_encoding.md R65, R76,
spec/60_exceptions.md R142, R143) -/

namespace Sys2Proof.Proofs

open Sys2Proof.Machine Sys2Proof.Laws Sys2Proof.Claims

/-! #### Idle steps, resets, directives and placed units -/

/-- Settles O7: without a line `step` is `idle`. -/
theorem idleStepChangesNothing : Obligations.IdleStepChangesNothing := by
  intro s hlines
  rw [step, hlines]
  rfl

/-- Settles O2: the line's effect is `resetBlock`. -/
theorem resetLineClearsTheResultRecord : Obligations.ResetLineClearsTheResultRecord :=
  fun _ _ hlines => step_of_lines_cons hlines

/-- Settles O5: a unit that decodes is executed; that what it decodes to is well formed is not needed. -/
theorem stepRunsTheDecodedInstruction : Obligations.StepRunsTheDecodedInstruction :=
  fun _ _ _ _ hlines hdecode _ => step_of_decode_ok hlines hdecode

/-- A table word stands for the instruction that its presented unit decodes to. -/
theorem decode_of_decodeTableWord {nbits w : Nat} {i : Instr} (h : decodeTableWord nbits w = some i) :
    decode (presentedOfWord nbits w) = .ok i := by
  rw [decodeTableWord] at h
  split at h
  · next hdecode => rw [hdecode, Option.some.inj h]
  · cases h

/-- Settles O6: the placed unit is the next line, and taking it off gives back the lines there were. -/
theorem placedWordIsTheNextInstruction : Obligations.PlacedWordIsTheNextInstruction :=
  fun s w _ h => step_of_decode_ok (withFetchWord_lines s 32 w) (decode_of_decodeTableWord h)

/-- Settles O8: `.in` sets `IN` to `ofBytes` of its list, which reads 0x00 past the list's end. -/
theorem directivesSetTheOperandBuffer : Obligations.DirectivesSetTheOperandBuffer := by
  refine ⟨fun s bs rest hlines hlen => ⟨ofBytes bs, ?_, fun i _ => readByte_ofBytes bs i, fun i hi => ?_⟩,
    fun s rest hlines => step_of_lines_cons hlines⟩
  · rw [step_of_lines_cons hlines, runLine]
    rcases presentIn_cases bs { s with lines := rest } with ⟨-, hnext⟩ | ⟨hlong, -⟩
    · exact hnext
    · omega
  · rw [readByte_ofBytes]
    exact List.getD_eq_default _ _ hi

/-- Only a unit named as an outgoing frame can be refused: request words and received buffers decode or raise
an error of the block. -/
theorem outgoing_of_notOutgoing {u : Presented} (h : decode u = .error .notOutgoing) : ∃ f, u = .outgoing f := by
  cases u with
  | request req => rcases decode_request_cases req with ⟨i, hi⟩ | hi <;> cases hi.symm.trans h
  | outgoing f => exact ⟨f, rfl⟩
  | received f =>
    rcases decode_received_cases f with ⟨e, -, hf⟩ | ⟨-, hf⟩ | ⟨-, hf⟩ <;> cases hf.symm.trans h

/-- Settles O9: line by line; a presented unit stops the step only where the decoder refuses it. -/
theorem onlyHostSlipsStopAStep : Obligations.OnlyHostSlipsStopAStep := by
  intro s
  rcases step_cases s with ⟨-, hidle⟩ | ⟨l, rest, hlines, hline⟩
  · exact .inl ⟨s, hidle⟩
  · cases l with
    | present u =>
      rcases presentUnit_cases u { s with lines := rest } with ⟨i, -, hrun⟩ | ⟨e, -, hrun⟩ | ⟨hdecode, hrun⟩
      · obtain ⟨r, -, hexec⟩ := exec_leaves i { s with lines := rest }
        exact .inl ⟨_, hline.trans (hrun.trans hexec)⟩
      · exact .inl ⟨_, hline.trans hrun⟩
      · obtain ⟨f, rfl⟩ := outgoing_of_notOutgoing hdecode
        exact .inr (.inr ⟨f, rest, hlines, hdecode, hline.trans hrun⟩)
    | setIn bytes =>
      rcases presentIn_cases bytes { s with lines := rest } with ⟨-, hrun⟩ | ⟨hlong, hrun⟩
      · exact .inl ⟨_, hline.trans hrun⟩
      · exact .inr (.inl ⟨bytes, rest, hlines, hlong, hline.trans hrun⟩)
    | inFromOut => exact .inl ⟨_, hline⟩
    | reset => exact .inl ⟨_, hline⟩

/-! #### IllegalRequest before everything else (R65, R143) -/

/-- The conditions of R65 under which a request word is illegal: reserved OP, reserved field, unused field. -/
def HasIllegalField (req : Word) : Prop :=
  4 ≤ (req.extractLsb' 0 4).toNat ∨ req.extractLsb' 4 4 ≠ 0 ∨ req.extractLsb' 14 2 ≠ 0 ∨
    ((req.extractLsb' 0 4 = 0x0#4 ∨ req.extractLsb' 0 4 = 0x3#4) ∧ req.extractLsb' 16 16 ≠ 0) ∨
    (req.extractLsb' 0 4 = 0x2#4 ∧ req.extractLsb' 8 24 ≠ 0)

/-- A word of an OP that is not reserved has no illegal field if the fields its operation does not use are 0. -/
theorem not_hasIllegalField_requestWord {op : BitVec 4} {n : BitVec 6} {cmd mid : Byte} (hop : op.toNat < 4)
    (hcount : op = 0x0 ∨ op = 0x3 → (requestWord op n cmd mid).extractLsb' 16 16 = 0)
    (hdec : op = 0x2 → (requestWord op n cmd mid).extractLsb' 8 24 = 0) :
    ¬ HasIllegalField (requestWord op n cmd mid) := by
  obtain ⟨hrop, hrsv0, -, hrsv1, -, -⟩ := requestWord_fields op n cmd mid
  rintro (hreserved | h0 | h1 | ⟨hused, hne⟩ | ⟨hused, hne⟩)
  · exact absurd (hrop ▸ hreserved : 4 ≤ op.toNat) (by omega)
  · exact h0 hrsv0
  · exact h1 hrsv1
  · exact hne (hcount (hrop ▸ hused))
  · exact hne (hdec (hrop ▸ hused))

/-- A word that carries a count only has its upper half 0. -/
theorem requestWord_upper_half (op : BitVec 4) (n : BitVec 6) : (requestWord op n 0 0).extractLsb' 16 16 = 0 := by
  apply BitVec.eq_of_getLsbD_eq
  intro i hi
  have hop : op.getLsbD (16 + i) = false := BitVec.getLsbD_of_ge _ _ (by omega)
  have hn : n.getLsbD (16 + i - 8) = false := BitVec.getLsbD_of_ge _ _ (by omega)
  simp [requestWord, hop, hn]

/-- A word with an illegal field decodes to nothing: the words that decode are the encodings, and none of those
has one. -/
theorem decode_of_hasIllegalField {req : Word} (h : HasIllegalField req) :
    decode (.request req) = .error (.raises .illegalRequest) := by
  rcases decode_request_inv req with ⟨n, rfl, -⟩ | ⟨cmd, mid, n, rfl, -⟩ | ⟨rfl, -⟩ | ⟨n, rfl, -⟩ | herror
  · exact absurd h (not_hasIllegalField_requestWord (by decide) (fun _ => requestWord_upper_half 0x0 n) nofun)
  · exact absurd h (not_hasIllegalField_requestWord (by decide) (by rintro (hop | hop) <;> cases hop) nofun)
  · exact absurd h (not_hasIllegalField_requestWord (by decide) (fun _ => rfl) fun _ => rfl)
  · exact absurd h (not_hasIllegalField_requestWord (by decide) (fun _ => requestWord_upper_half 0x3 n) nofun)
  · exact herror

/-- Settles O17: the decode error is raised before any byte of `IN` is read. -/
theorem illegalRequestComesFirst : Obligations.IllegalRequestComesFirst :=
  fun _ _ _ hlines hillegal => step_of_decode_error hlines (decode_of_hasIllegalField hillegal)

/-! #### The STATUS values of each operation (R142) -/

/-- R142's table: STATUS `st` after a request word whose OP field is `op`. -/
abbrev AllowedStatus (op : BitVec 4) (st : BitVec 8) : Prop :=
  (op = 0x0#4 → st ∈ [0x00#8, 0x05#8, 0x06#8]) ∧
    (op = 0x1#4 → st ∈ [0x00#8, 0x01#8, 0x06#8]) ∧
    (op = 0x2#4 → st ∈ [0x00#8, 0x02#8, 0x03#8, 0x04#8, 0x06#8]) ∧
    (op = 0x3#4 → st ∈ [0x00#8, 0x05#8, 0x06#8]) ∧
    (4 ≤ op.toNat → st = 0x06)

/-- IllegalRequest is allowed for every OP. -/
theorem allowedStatus_illegalRequest (op : BitVec 4) : AllowedStatus op 0x06 := by
  revert op
  decide

/-- An operation with a length check leaves its result's STATUS or its length error's. -/
theorem allowedStatus_withinLimit {op : BitVec 4} {limit n : Nat} {e : Error} {r : ResultRecord} {s : State}
    (hstatus : r.status = 0x00) (hok : AllowedStatus op 0x00) (herror : AllowedStatus op (errorStatus e)) :
    AllowedStatus op (complete (withinLimit limit n e r) s).result.status := by
  rw [withinLimit_eq]
  split
  · exact hstatus ▸ hok
  · exact herror

/-- `DEC` leaves OK or one of the three errors of its checks. -/
theorem allowedStatus_dec (s : State) : ∃ t, exec .dec s = .next t ∧ AllowedStatus 0x2 t.result.status := by
  have hok : AllowedStatus 0x2 0x00 := by decide
  have hlong : AllowedStatus 0x2 0x02 := by decide
  have hmismatch : AllowedStatus 0x2 0x03 := by decide
  have hunknown : AllowedStatus 0x2 0x04 := by decide
  rw [exec_dec_eq]
  split_ifs
  · exact ⟨_, rfl, hlong⟩
  · exact ⟨_, rfl, hmismatch⟩
  · exact ⟨_, rfl, hok⟩
  · exact ⟨_, rfl, hok⟩
  · exact ⟨_, rfl, hunknown⟩

/-- Settles O18: a word that decodes has its operation's OP, whose errors are those of its one check or, for
`DEC`, of its three; every other word is illegal. -/
theorem operationsRaiseOnlyTheirErrors : Obligations.OperationsRaiseOnlyTheirErrors := by
  intro s req rest hlines
  show ∃ t, step s = .next t ∧ AllowedStatus (reqOp req) t.result.status
  rcases decode_request_inv req with
    ⟨n, hreq, hdecode⟩ | ⟨cmd, mid, n, hreq, hdecode⟩ | ⟨hreq, hdecode⟩ | ⟨n, hreq, hdecode⟩ | herror
  · rw [hreq, (requestWord_fields 0x0 n 0 0).1, step_of_decode_ok hlines hdecode]
    exact ⟨_, exec_csum_next n _, allowedStatus_withinLimit rfl (by decide) (by decide)⟩
  · rw [hreq, (requestWord_fields 0x1 n cmd mid).1, step_of_decode_ok hlines hdecode]
    exact ⟨_, exec_enc_next cmd mid n _, allowedStatus_withinLimit rfl (by decide) (by decide)⟩
  · rw [hreq, (requestWord_fields 0x2 0 0 0).1, step_of_decode_ok hlines hdecode]
    exact allowedStatus_dec _
  · rw [hreq, (requestWord_fields 0x3 n 0 0).1, step_of_decode_ok hlines hdecode]
    exact ⟨_, exec_kdf_next n _, allowedStatus_withinLimit rfl (by decide) (by decide)⟩
  · exact ⟨_, step_of_decode_error hlines herror, allowedStatus_illegalRequest (reqOp req)⟩

/-! #### What the record depends on (R36) -/

/-- Every instruction completes with a result that the 32 bytes of `IN` and of `TMPL` decide: a longer count is
refused unread. -/
theorem exec_congr (i : Instr) {s s' : State} (hin : sameOn s.inBuf s'.inBuf 0 32)
    (htmpl : sameOn s.tmpl s'.tmpl 0 32) :
    ∃ r, exec i s = .next (complete r s) ∧ exec i s' = .next (complete r s') := by
  have hupTo : ∀ n, n ≤ 32 → sameOn s.inBuf s'.inBuf 0 n := fun n hn j h0 hj => hin j h0 (by omega)
  cases i with
  | csum n => exact ⟨_, exec_csum_next n s, by rw [exec_csum_next, csumOp_congr (hupTo n.toNat)]⟩
  | enc cmd mid n =>
    exact ⟨_, exec_enc_next cmd mid n s,
      by rw [exec_enc_next, encOp_congr fun hn => hupTo n.toNat (by omega)]⟩
  | dec => exact ⟨_, exec_dec_next s, by rw [exec_dec_next, decOp_eq_of_sameOn hin]⟩
  | kdf n =>
    have htail : sameOn s.tmpl s'.tmpl n.toNat 32 := fun j _ hj => htmpl j (by omega) hj
    exact ⟨_, exec_kdf_next n s, by rw [exec_kdf_next, kdfOp_congr (hupTo n.toNat) htail]⟩
  | frameOut cmd mid p => exact ⟨_, exec_frameOut_next cmd mid p s, exec_frameOut_next cmd mid p s'⟩
  | frameResp f => exact ⟨_, (exec_received_next f s).1, (exec_received_next f s').1⟩
  | frameEvt f => exact ⟨_, (exec_received_next f s).2, (exec_received_next f s').2⟩

/-- Settles O19: both words decode alike, to an error or to an instruction that the shared bytes decide. -/
theorem recordDependsOnTheRequestOnly : Obligations.RecordDependsOnTheRequestOnly := by
  intro s s' req rest rest' hlines hlines' hin htmpl
  rcases decode_request_cases req with ⟨i, hdecode⟩ | hdecode
  · obtain ⟨r, hexec, hexec'⟩ :=
      exec_congr i (s := { s with lines := rest }) (s' := { s' with lines := rest' }) hin htmpl
    obtain ⟨q, hq, hq'⟩ := complete_leaves_same_record r { s with lines := rest } { s' with lines := rest' }
    exact ⟨_, _, (step_of_decode_ok hlines hdecode).trans (hexec.trans hq),
      (step_of_decode_ok hlines' hdecode).trans (hexec'.trans hq'), rfl⟩
  · exact ⟨_, _, step_of_decode_error hlines hdecode, step_of_decode_error hlines' hdecode, rfl⟩

end Sys2Proof.Proofs
